-- ==== Sys2Proof/Word.lean ====
section
/-! DEFINITION. The widths in which the specification counts: a byte of configuration space, the 16-bit
offset and the 32-bit data of a request, and the request word itself (00_scope.md R11, 30_encoding.md R100).
All values are unsigned; no operation of the block reads one as signed (R11). -/

namespace Sys2Proof

/-- One byte of configuration space (10_state.md R21). -/
abbrev Byte := BitVec 8

/-- A 16-bit field or access (20_memory.md R74, "word"). -/
abbrev Half := BitVec 16

/-- A 32-bit field, access, BAR register or decoded address (20_memory.md R70, R74). -/
abbrev Dword := BitVec 32

/-- An operation request `REQ[63:0]` (30_encoding.md R100). -/
abbrev Request := BitVec 64

end Sys2Proof
end

