-- ==== Sys2Proof/Config.lean ====
section
/-! DEFINITION. What an instance of the block is built from: the *layout* of 00_scope.md R9 as a record that
the operations take as an argument (R9: "A model should take the layout as a configuration value"), and the
values the specification leaves OPEN, as constants without a body. The layout this hardware has is
`Sys2Proof.Machine.layout`, in Machine/Layout.lean. Nothing here is state (10_state.md R20). -/

namespace Sys2Proof

/-- The access widths: exactly 1, 2 and 4 bytes (20_memory.md R74; 30_encoding.md R106 asks for a
three-valued enumeration). Fields have the same three widths (10_state.md R23). -/
inductive Width where
  | byte
  | word
  | dword
deriving DecidableEq, Repr

/-- Access classes of a field (10_state.md R23): ROC, ROS, RW, RWS. -/
inductive AccessClass where
  | readOnlyConstant
  | readOnlyStatus
  | readWrite
  | readWriteSideEffect
deriving DecidableEq, Repr

/-- The fields of the map of 10_state.md R25, by the names that rule gives them. -/
inductive FieldName where
  | VID | DID | CMD | STS | REV | PI | SCC | BCC
  | BAR0 | BAR1 | BAR2 | BAR3 | BAR4 | BAR5
  | CAPPTR | INTLN | INTPN
  | PM_ID | PM_NEXT | PMC | PMCS
  | MSI_ID | MSI_NEXT | MSI_MC | MSI_MA | MSI_MD
deriving DecidableEq, Repr

/-- A field: "a named byte range `[offset, offset+width)` within configuration space" (10_state.md R23).
`reset` and `wmask` are used in their low `width` bytes only. -/
structure Field where
  name   : FieldName
  offset : Nat
  width  : Width
  reset  : Dword
  wmask  : Dword
  cls    : AccessClass
deriving DecidableEq, Repr

/-- The kinds of a BAR (00_scope.md R10). `mem64` exists as a name only: a layout that declares one is
refused by `Layout.wellFormed`. -/
inductive BarKind where
  | io
  | mem32
  | mem64
deriving DecidableEq, Repr

/-- The two spaces the guest maps BAR windows into (20_memory.md R70). -/
inductive Space where
  | io
  | mem
deriving DecidableEq, Repr

/-- The constants of one Base Address Register (10_state.md R60): `BAR_OFF`, `BAR_KIND`, `BAR_PREFETCH`,
`BAR_SIZE`, `BAR_RESET`. The current base is no constant and no separate register (41_bar_logic.md R157). -/
structure BarDesc where
  offset       : Nat
  kind         : BarKind
  prefetchable : Bool
  size         : Nat
  reset        : Dword
deriving DecidableEq, Repr

/-- The layout of 00_scope.md R9, as plain data. `ADDR_BITS` (32) and `NUM_BARS` (6) are widths of the types, as
the rules state them (41_bar_logic.md R150, R161; 10_state.md R20; log 16). `CAP_PTR`, `PM_NEXT` and `MSI_NEXT` are
reset bytes and the write masks are masks of fields, so they are read off `fields` (`Layout.capPtr` and so on). -/
structure Layout where
  cfgSize     : Nat
  fields      : List Field
  bars        : Vector BarDesc 6
  pmBase      : Nat
  pmId        : Byte
  msiBase     : Nat
  msiId       : Byte
  capRegionLo : Nat
  capRegionHi : Nat
  minCapSize  : Nat
  maxHops     : Nat
deriving DecidableEq, Repr

/-- OPEN: the value of PMC after construction (10_state.md R51, decision D9). No value is stated anywhere,
and none can be derived from this constant. -/
opaque Config.pmcReset : Half

/-- OPEN: the value of PMCS after construction (10_state.md R52, D9). -/
opaque Config.pmcsReset : Half

/-- OPEN: the value of MSI_MC after construction (10_state.md R55, D9). -/
opaque Config.msiMcReset : Half

/-- OPEN: the value of MSI_MA after construction (10_state.md R56, D9). -/
opaque Config.msiMaReset : Dword

/-- OPEN: the value of MSI_MD after construction (10_state.md R57, D9). -/
opaque Config.msiMdReset : Half

/-- `STORAGE_CFG_PATH`: the storage-engine configuration path given at construction, an opaque constant of
the instance that no operation reads (00_scope.md R7, 10_state.md R63, D32). -/
opaque Config.storageCfgPath : String

/-- The handle of the simulator, injected at construction; an opaque constant of the instance that no
operation reads (10_state.md R63, D32). -/
opaque Config.simulatorHandle : Nat

end Sys2Proof
end

