-- ==== Sys2Proof/Syntax.lean ====
section
/-! DEFINITION. The twelve operations of the block (00_scope.md R13, 30_encoding.md R101), one constructor
per row of the opcode table, with exactly the operands each row uses (R101, R103): an ignored field of the
request is no part of the operation (R104). -/

namespace Sys2Proof

/-- The agents that issue operations (00_scope.md R14). -/
inductive Agent where
  | guest
  | host
deriving DecidableEq, Repr

/-- The operations (30_encoding.md R101). `off` is the 16-bit byte offset (R102); the data of a write is cut
to the access width (R103, D31). -/
inductive Instr where
  /-- CFG_RD8 `off` -/
  | cfgRd8 (off : Half)
  /-- CFG_RD16 `off` -/
  | cfgRd16 (off : Half)
  /-- CFG_RD32 `off` -/
  | cfgRd32 (off : Half)
  /-- CFG_WR8 `off, dat[7:0]` -/
  | cfgWr8 (off : Half) (dat : Byte)
  /-- CFG_WR16 `off, dat[15:0]` -/
  | cfgWr16 (off : Half) (dat : Half)
  /-- CFG_WR32 `off, dat[31:0]` -/
  | cfgWr32 (off : Half) (dat : Dword)
  /-- BAR_DECODE_MEM `addr` -/
  | barDecodeMem (addr : Dword)
  /-- BAR_DECODE_IO `addr` -/
  | barDecodeIo (addr : Dword)
  /-- CAP_WALK -/
  | capWalk
  /-- CAP_FIND `id` -/
  | capFind (id : Byte)
  /-- CONSTRUCT -/
  | construct
  /-- TEARDOWN -/
  | teardown
deriving DecidableEq, Repr

/-- The names of the operations, one per row of the opcode table: what the `op` field of a request selects
(30_encoding.md R101). -/
inductive Opcode where
  | cfgRd8 | cfgRd16 | cfgRd32
  | cfgWr8 | cfgWr16 | cfgWr32
  | barDecodeMem | barDecodeIo
  | capWalk | capFind
  | construct | teardown
deriving DecidableEq, Repr

/-- What the decoder answers: "every 64-bit word decodes either to one of the twelve operations ... or to
`Illegal`" (30_encoding.md R105). -/
inductive Decoded where
  | op (i : Instr)
  | illegal
deriving DecidableEq, Repr

/-- Who issues an operation: the column "issuer" of 30_encoding.md R101. The block does not check it
(60_exceptions.md R213); it is used in statements about what a guest can do. -/
def Instr.issuer : Instr → Agent
  | .cfgRd8 _ | .cfgRd16 _ | .cfgRd32 _ => .guest
  | .cfgWr8 _ _ | .cfgWr16 _ _ | .cfgWr32 _ _ => .guest
  | .barDecodeMem _ | .barDecodeIo _ => .host
  | .capWalk | .capFind _ => .host
  | .construct | .teardown => .host

end Sys2Proof
end

