-- ==== Sys2Proof/Machine/Layout.lean ====
section
/-! DEFINITION. The layout of this hardware (00_scope.md R9, 10_state.md R25) and what is derived from a
layout: the byte image after construction and the per-byte write masks (10_state.md R22), the 32-bit mask and
the size mask of a BAR (41_bar_logic.md R150, R151). -/

namespace Sys2Proof

/-- The number of bytes of an access or a field. -/
def Width.bytes : Width → Nat
  | .byte => 1
  | .word => 2
  | .dword => 4

/-- Byte `k` of a value, `v[8k+7:8k]`: the byte at the lowest offset holds bits [7:0] (20_memory.md R72). -/
def byteAt (v : Dword) (k : Nat) : Byte := v.extractLsb' (8 * k) 8

/-- Whether a field covers the byte offset `o` (10_state.md R23). -/
def Field.covers (f : Field) (o : Nat) : Bool := f.offset ≤ o && o < f.offset + f.width.bytes

/-- The field that covers a byte offset; `none` for a reserved byte (10_state.md R24). -/
def Layout.fieldAt (L : Layout) (o : Nat) : Option Field := L.fields.find? (·.covers o)

/-- `rst[o]`: the byte after construction; a reserved byte has 0x00 (10_state.md R22). -/
def Layout.rst (L : Layout) (o : Nat) : Byte :=
  match L.fieldAt o with
  | some f => byteAt f.reset (o - f.offset)
  | none => 0

/-- `wmask[o]`: the bits of the byte that a CFG_WR can change; none of a reserved byte (10_state.md R22). -/
def Layout.wmask (L : Layout) (o : Nat) : Byte :=
  match L.fieldAt o with
  | some f => byteAt f.wmask (o - f.offset)
  | none => 0

/-- `n` bytes by offset, from `o` up. -/
def bytesFrom (f : Nat → Byte) : Nat → Nat → List Byte
  | 0, _ => []
  | n + 1, o => f o :: bytesFrom f n (o + 1)

theorem bytesFrom_length (f : Nat → Byte) (n o : Nat) : (bytesFrom f n o).length = n := by
  induction n generalizing o with
  | zero => rfl
  | succ n ih => simp [bytesFrom, ih]

theorem bytesFrom_getElem (f : Nat → Byte) (n o k : Nat) (h : k < (bytesFrom f n o).length) :
    (bytesFrom f n o)[k] = f (o + k) := by
  induction n generalizing o k with
  | zero => simp [bytesFrom] at h
  | succ n ih =>
    cases k with
    | zero => rfl
    | succ k =>
      simp only [bytesFrom, List.getElem_cons_succ]
      rw [ih (o + 1) k (by simpa [bytesFrom] using h)]
      congr 1; omega

/-- The whole reset image, `rst[0 .. CFG_SIZE-1]` (10_state.md R66, 70_reset_and_hazards.md R231). -/
def Layout.resetImage (L : Layout) : List Byte := bytesFrom L.rst L.cfgSize 0

/-- `CAP_PTR`, "reset value of byte 0x34" (00_scope.md R9). -/
def Layout.capPtr (L : Layout) : Nat := (L.rst 0x34).toNat

/-- `PM_NEXT`: the next pointer is the second byte of a capability (00_scope.md R9, 30_encoding.md R110). -/
def Layout.pmNext (L : Layout) : Byte := L.rst (L.pmBase + 1)

/-- `MSI_NEXT` (00_scope.md R9, 30_encoding.md R110). -/
def Layout.msiNext (L : Layout) : Byte := L.rst (L.msiBase + 1)

/-- The descriptor of BAR `i`. -/
def Layout.bar (L : Layout) (i : Fin 6) : BarDesc := L.bars[i]

/-- `wmask32(i)` for a BAR of the given size: `(2^32 - BAR_SIZE[i]) mod 2^32`, and 0 for size 0
(41_bar_logic.md R150). -/
def barMask (size : Nat) : Dword := if size = 0 then 0 else BitVec.ofNat 32 (2 ^ 32 - size)

/-- `wmask32(i)` (41_bar_logic.md R150). -/
def Layout.wmask32 (L : Layout) (i : Fin 6) : Dword := barMask (L.bar i).size

/-- `sizemask(i)`, what BAR `i` reads as while `Sizing` (41_bar_logic.md R151). -/
def Layout.sizeMask (L : Layout) (i : Fin 6) : Dword := L.wmask32 i ||| (L.bar i).reset

/-- The space a kind of BAR is decoded in (41_bar_logic.md R161). A 64-bit memory BAR has no meaning
(00_scope.md R10), so it lies in neither space. -/
def spaceOf : BarKind → Option Space
  | .io => some .io
  | .mem32 => some .mem
  | .mem64 => none

/-- The low bits called kind/flag bits, by the declared kind (30_encoding.md R108, R109; 41_bar_logic.md
R168): bits [1:0] of an I/O BAR, bits [3:0] of a memory BAR. -/
def BarKind.flagMask : BarKind → Dword
  | .io => 0x3
  | .mem32 => 0xF
  | .mem64 => 0xF

/-- The fixed value of the kind/flag bits (30_encoding.md R108, R109): the I/O-space marker, or the
prefetchable bit and the memory type. -/
def BarDesc.flagBits (b : BarDesc) : Dword :=
  match b.kind with
  | .io => 0x1
  | .mem32 => if b.prefetchable then 0x8 else 0x0
  | .mem64 => if b.prefetchable then 0xC else 0x4

namespace Machine

/-- The field map of this hardware (10_state.md R25), header part. -/
def headerFields : List Field :=
  [ ⟨.VID, 0x00, .word, 0x8086, 0x0000, .readOnlyConstant⟩,
    ⟨.DID, 0x02, .word, 0x8C80, 0x0000, .readOnlyConstant⟩,
    ⟨.CMD, 0x04, .word, 0x0000, 0xFFFF, .readWriteSideEffect⟩,
    ⟨.STS, 0x06, .word, 0x02B0, 0x0000, .readOnlyStatus⟩,
    ⟨.REV, 0x08, .byte, 0x00, 0x00, .readOnlyConstant⟩,
    ⟨.PI, 0x09, .byte, 0x01, 0x00, .readOnlyConstant⟩,
    ⟨.SCC, 0x0A, .byte, 0x06, 0x00, .readOnlyConstant⟩,
    ⟨.BCC, 0x0B, .byte, 0x01, 0x00, .readOnlyConstant⟩,
    ⟨.BAR0, 0x10, .dword, 0x00000001, 0xFFFFFFF8, .readWriteSideEffect⟩,
    ⟨.BAR1, 0x14, .dword, 0x00000001, 0xFFFFFFFC, .readWriteSideEffect⟩,
    ⟨.BAR2, 0x18, .dword, 0x00000001, 0xFFFFFFF8, .readWriteSideEffect⟩,
    ⟨.BAR3, 0x1C, .dword, 0x00000001, 0xFFFFFFFC, .readWriteSideEffect⟩,
    ⟨.BAR4, 0x24, .dword, 0x00000001, 0xFFFFFFE0, .readWriteSideEffect⟩,
    ⟨.BAR5, 0x28, .dword, 0x00000000, 0xFFFFFC00, .readWriteSideEffect⟩,
    ⟨.CAPPTR, 0x34, .byte, 0x80, 0x00, .readOnlyConstant⟩,
    ⟨.INTLN, 0x3C, .byte, 0x0B, 0xFF, .readWrite⟩,
    ⟨.INTPN, 0x3D, .byte, 0x02, 0x00, .readOnlyConstant⟩ ]

/-- The field map of this hardware (10_state.md R25), capability part (30_encoding.md R111, R113). The five
payload values are the OPEN constants of Config.lean. -/
def capabilityFields : List Field :=
  [ ⟨.PM_ID, 0x70, .byte, 0x01, 0x00, .readOnlyConstant⟩,
    ⟨.PM_NEXT, 0x71, .byte, 0xA8, 0x00, .readOnlyConstant⟩,
    ⟨.PMC, 0x72, .word, Config.pmcReset.setWidth 32, 0x0000, .readOnlyConstant⟩,
    ⟨.PMCS, 0x74, .word, Config.pmcsReset.setWidth 32, 0xFFFF, .readWrite⟩,
    ⟨.MSI_ID, 0x80, .byte, 0x05, 0x00, .readOnlyConstant⟩,
    ⟨.MSI_NEXT, 0x81, .byte, 0x70, 0x00, .readOnlyConstant⟩,
    ⟨.MSI_MC, 0x82, .word, Config.msiMcReset.setWidth 32, 0xFFFF, .readWrite⟩,
    ⟨.MSI_MA, 0x84, .dword, Config.msiMaReset, 0xFFFFFFFF, .readWrite⟩,
    ⟨.MSI_MD, 0x88, .word, Config.msiMdReset.setWidth 32, 0xFFFF, .readWrite⟩ ]

/-- The six BARs of this hardware (00_scope.md R9, 10_state.md R37 to R43): five I/O windows and the AHCI
memory window. -/
def barTable : Vector BarDesc 6 :=
  #v[ ⟨0x10, .io, false, 8, 0x00000001⟩,
      ⟨0x14, .io, false, 4, 0x00000001⟩,
      ⟨0x18, .io, false, 8, 0x00000001⟩,
      ⟨0x1C, .io, false, 4, 0x00000001⟩,
      ⟨0x24, .io, false, 32, 0x00000001⟩,
      ⟨0x28, .mem32, false, 1024, 0x00000000⟩ ]

/-- The one layout this hardware has (00_scope.md R9). -/
def layout : Layout where
  cfgSize := 256
  fields := headerFields ++ capabilityFields
  bars := barTable
  pmBase := 0x70
  pmId := 0x01
  msiBase := 0x80
  msiId := 0x05
  capRegionLo := 0x70
  capRegionHi := 0xAF
  minCapSize := 4
  maxHops := 16

end Machine

end Sys2Proof
end

