-- ==== Sys2Proof/WellFormed.lean ====
section
/-! DEFINITION. Well-formedness. An operation of `Instr` is well-formed by its types (every operand has the
width its request field has), so the checks that can fail are those of the layout: the eight conditions of
10_state.md R27 (`Layout.wellFormed`), and beside them what two other rules state of a layout's own data
(`Layout.attributesFit`). -/

namespace Sys2Proof

/-- Every operand of every operation is exactly the request field it comes from (30_encoding.md R101 to
R103), so no value of `Instr` is ill-formed. -/
def Instr.wellFormed : Instr → Bool
  | .cfgRd8 _ | .cfgRd16 _ | .cfgRd32 _ => true
  | .cfgWr8 _ _ | .cfgWr16 _ _ | .cfgWr32 _ _ => true
  | .barDecodeMem _ | .barDecodeIo _ => true
  | .capWalk | .capFind _ => true
  | .construct | .teardown => true

/-- Two byte ranges share no byte. -/
def Field.disjoint (f g : Field) : Bool :=
  f.offset + f.width.bytes ≤ g.offset || g.offset + g.width.bytes ≤ f.offset

/-- R27 (1): every field lies inside `[0, CFG_SIZE)`; its width is 1, 2 or 4 by its type. -/
def Layout.fieldsInside (L : Layout) : Bool := L.fields.all fun f => f.offset + f.width.bytes ≤ L.cfgSize

/-- R27 (2): no two fields overlap (10_state.md R24). -/
def Layout.fieldsDisjoint (L : Layout) : Bool := decide (L.fields.Pairwise fun f g => f.disjoint g = true)

/-- R27 (3): every `BAR_SIZE[i]` is 0 or a power of two not above 2^31. -/
def Layout.barSizesPowers (L : Layout) : Bool :=
  L.bars.toList.all fun b => b.size = 0 || ((List.range 32).map (2 ^ ·)).contains b.size

/-- The smallest size R27 (4) allows a BAR of a kind. -/
def BarKind.minSize : BarKind → Nat
  | .io => 4
  | .mem32 => 16
  | .mem64 => 16

/-- R27 (4): a BAR in use has its reset constant below the size boundary and is not smaller than its
kind/flag group. -/
def Layout.barConstantsSmall (L : Layout) : Bool :=
  L.bars.toList.all fun b => b.size = 0 || (b.reset.toNat < b.size && b.kind.minSize ≤ b.size)

/-- R27 (5): no BAR has kind MEM64 (00_scope.md R10, D28). -/
def Layout.noMem64 (L : Layout) : Bool := L.bars.toList.all fun b => b.kind ≠ .mem64

/-- R27 (6): each BAR is a 4-byte field of the table whose writable mask is `wmask32(i)` and whose reset
value is `BAR_RESET[i]`. -/
def Layout.barFieldsMatch (L : Layout) : Bool :=
  L.bars.toList.all fun b => L.fields.any fun f =>
    f.offset = b.offset && f.width = .dword && f.wmask = barMask b.size && f.reset = b.reset

/-- R27 (7): `CAP_PTR`, `PM_BASE`, `MSI_BASE` are offsets of bytes in `cfg`, and the two header bytes of both
capabilities are read-only. -/
def Layout.capabilityHeadersFixed (L : Layout) : Bool :=
  L.capPtr < L.cfgSize && L.pmBase < L.cfgSize && L.msiBase < L.cfgSize &&
    L.wmask L.pmBase = 0 && L.wmask (L.pmBase + 1) = 0 &&
    L.wmask L.msiBase = 0 && L.wmask (L.msiBase + 1) = 0

/-- R27 (8): `MAX_HOPS = (CAP_REGION_HI - CAP_REGION_LO + 1) / MIN_CAP_SIZE`. -/
def Layout.hopBoundMatches (L : Layout) : Bool :=
  L.maxHops = (L.capRegionHi - L.capRegionLo + 1) / L.minCapSize

/-- 10_state.md R23: a read-only class has writable mask 0, a read-write class a mask that is not 0. -/
def Layout.classesMatch (L : Layout) : Bool :=
  L.fields.all fun f =>
    match f.cls with
    | .readOnlyConstant | .readOnlyStatus => f.wmask = 0
    | .readWrite | .readWriteSideEffect => f.wmask ≠ 0

/-- 30_encoding.md R108, R109: the kind/flag bits of a BAR in use hold the value its kind fixes. -/
def Layout.flagBitsMatch (L : Layout) : Bool :=
  L.bars.toList.all fun b => b.size = 0 || b.reset &&& b.kind.flagMask = b.flagBits

/-- Layout well-formedness, R27 (1) to (8). The chain integrity check is no part of it: CONSTRUCT performs that
(R27, 70_reset_and_hazards.md R233). -/
def Layout.wellFormed (L : Layout) : Bool :=
  L.fieldsInside && L.fieldsDisjoint && L.barSizesPowers && L.barConstantsSmall && L.noMem64 &&
    L.barFieldsMatch && L.capabilityHeadersFixed && L.hopBoundMatches

/-- The attributes that no operation reads fit the rest of the layout: R23 and R108/R109 (log 13). -/
def Layout.attributesFit (L : Layout) : Bool := L.classesMatch && L.flagBitsMatch

end Sys2Proof
end

