-- ==== Sys2Proof/Decode.lean ====
section
/-! DEFINITION. The decoder of request words, total on all 64-bit words, and the encoder, both over the one
table of operation codes (30_encoding.md R100 to R105). -/

namespace Sys2Proof

/-- `op[63:56]` (30_encoding.md R100). -/
def opField (w : Request) : Byte := w.extractLsb' 56 8

/-- `off[47:32]` (30_encoding.md R100, R102). -/
def offField (w : Request) : Half := w.extractLsb' 32 16

/-- `dat[31:0]` (30_encoding.md R100, R103). -/
def datField (w : Request) : Dword := w.extractLsb' 0 32

/-- The operation codes (30_encoding.md R101). -/
def Opcode.code : Opcode → Byte
  | .cfgRd8 => 0x01
  | .cfgRd16 => 0x02
  | .cfgRd32 => 0x04
  | .cfgWr8 => 0x11
  | .cfgWr16 => 0x12
  | .cfgWr32 => 0x14
  | .barDecodeMem => 0x20
  | .barDecodeIo => 0x21
  | .capWalk => 0x30
  | .capFind => 0x31
  | .construct => 0xF0
  | .teardown => 0xFF

/-- The twelve operations, in the table's order. -/
def Opcode.all : List Opcode :=
  [.cfgRd8, .cfgRd16, .cfgRd32, .cfgWr8, .cfgWr16, .cfgWr32, .barDecodeMem, .barDecodeIo, .capWalk, .capFind,
    .construct, .teardown]

/-- The operation an `op` field selects; none for every code that is not in the table (30_encoding.md R105). -/
def Opcode.ofCode (b : Byte) : Option Opcode := Opcode.all.find? fun c => c.code = b

/-- Operand assembly (30_encoding.md R102, R103): which fields an operation uses, and the truncation of `dat`
to the access width or to the capability ID. -/
def Opcode.operation (c : Opcode) (off : Half) (dat : Dword) : Instr :=
  match c with
  | .cfgRd8 => .cfgRd8 off
  | .cfgRd16 => .cfgRd16 off
  | .cfgRd32 => .cfgRd32 off
  | .cfgWr8 => .cfgWr8 off (dat.setWidth 8)
  | .cfgWr16 => .cfgWr16 off (dat.setWidth 16)
  | .cfgWr32 => .cfgWr32 off dat
  | .barDecodeMem => .barDecodeMem dat
  | .barDecodeIo => .barDecodeIo dat
  | .capWalk => .capWalk
  | .capFind => .capFind (dat.setWidth 8)
  | .construct => .construct
  | .teardown => .teardown

/-- The decoder (30_encoding.md R105). The ignored fields take no part (R104). -/
def decode (w : Request) : Decoded :=
  match Opcode.ofCode (opField w) with
  | some c => .op (c.operation (offField w) (datField w))
  | none => .illegal

/-- The name of an operation's row. -/
def Instr.opcode : Instr → Opcode
  | .cfgRd8 _ => .cfgRd8
  | .cfgRd16 _ => .cfgRd16
  | .cfgRd32 _ => .cfgRd32
  | .cfgWr8 _ _ => .cfgWr8
  | .cfgWr16 _ _ => .cfgWr16
  | .cfgWr32 _ _ => .cfgWr32
  | .barDecodeMem _ => .barDecodeMem
  | .barDecodeIo _ => .barDecodeIo
  | .capWalk => .capWalk
  | .capFind _ => .capFind
  | .construct => .construct
  | .teardown => .teardown

/-- What an assembler writes into `off`: the offset, or zero where the field is ignored (30_encoding.md R104). -/
def Instr.off : Instr → Half
  | .cfgRd8 off | .cfgRd16 off | .cfgRd32 off => off
  | .cfgWr8 off _ | .cfgWr16 off _ | .cfgWr32 off _ => off
  | .barDecodeMem _ | .barDecodeIo _ => 0
  | .capWalk | .capFind _ => 0
  | .construct | .teardown => 0

/-- What an assembler writes into `dat`: the operand, zero above it and zero where the field is ignored
(30_encoding.md R103, R104). -/
def Instr.dat : Instr → Dword
  | .cfgRd8 _ | .cfgRd16 _ | .cfgRd32 _ => 0
  | .cfgWr8 _ dat => dat.setWidth 32
  | .cfgWr16 _ dat => dat.setWidth 32
  | .cfgWr32 _ dat => dat
  | .barDecodeMem addr | .barDecodeIo addr => addr
  | .capWalk => 0
  | .capFind id => id.setWidth 32
  | .construct | .teardown => 0

/-- A request word from its fields, `rsv` written 0x00 (30_encoding.md R100). -/
def packRequest (op : Byte) (off : Half) (dat : Dword) : Request := op ++ (0x00 : Byte) ++ off ++ dat

/-- The encoder: the request word an assembler writes for an operation (30_encoding.md R100 to R104). -/
def encode (i : Instr) : Request := packRequest i.opcode.code i.off i.dat

/-- The bits of the request word that take part in decoding to the given operation (30_encoding.md R101, R103,
R104): `op` always, `off` and the used low part of `dat` where the table says so. -/
def Instr.usedBits : Instr → Request
  | .cfgRd8 _ | .cfgRd16 _ | .cfgRd32 _ => 0xFF00FFFF00000000
  | .cfgWr8 _ _ => 0xFF00FFFF000000FF
  | .cfgWr16 _ _ => 0xFF00FFFF0000FFFF
  | .cfgWr32 _ _ => 0xFF00FFFFFFFFFFFF
  | .barDecodeMem _ | .barDecodeIo _ => 0xFF000000FFFFFFFF
  | .capWalk => 0xFF00000000000000
  | .capFind _ => 0xFF000000000000FF
  | .construct | .teardown => 0xFF00000000000000

/-- The request word whose low `nbits` bits are those of `w`, numbered as the opcode table numbers them (bit 0
the least significant bit of the one 64-bit word), and whose other bits are 0. -/
def requestOfTable (nbits w : Nat) : Request := BitVec.ofNat 64 (w % 2 ^ nbits)

/-- The operation the decoder reads from an opcode-table word; none where it answers `illegal`. -/
def decodeTableWord (nbits w : Nat) : Option Instr :=
  match decode (requestOfTable nbits w) with
  | .op i => some i
  | .illegal => none

end Sys2Proof
end

