-- ==== Sys2Proof/Machine/State.lean ====
section
/-! DEFINITION. The state of the block, `(life, cfg, bar_state)` (10_state.md R20), the two fields that carry
its interface (the requests still to come, the result of the last one), the results (30_encoding.md R107), and
the machine before any CONSTRUCT. -/

namespace Sys2Proof.Machine

/-- The configuration bytes `cfg[0 .. CFG_SIZE-1]` (10_state.md R21): the block's register file. That there are
`CFG_SIZE` of them is an invariant (log 8). -/
abbrev CfgBytes := List Byte

/-- The lifecycle value `life` (10_state.md R62). -/
inductive Life where
  | absent
  | operational
  | failed
deriving DecidableEq, Repr

/-- The state machine of one BAR (10_state.md R61). -/
inductive BarState where
  | unsized
  | sizing
  | based
deriving DecidableEq, Repr

/-- The type-specific payload of a capability structure (42_capability_chain.md R180). -/
inductive Payload where
  | pm (pmc pmcs : Half)
  | msi (mc : Half) (ma : Dword) (md : Half)
  | unknown
deriving DecidableEq, Repr

/-- A node as the walker reports it (42_capability_chain.md R180). -/
structure Node where
  base    : Byte
  id      : Byte
  next    : Byte
  payload : Payload
deriving DecidableEq, Repr

/-- The reasons of `LayoutIntegrityFault`, cause code `a` (60_exceptions.md R201). -/
inductive IntegrityReason where
  | hopLimit
  | wrongSet
deriving DecidableEq, Repr

/-- The reasons of the result `Refused` (30_encoding.md R107, R112). -/
inductive RefuseReason where
  | illegalOp
  | notOperational
  | alreadyConstructed
deriving DecidableEq, Repr

/-- The abstract result an operation returns to its issuer (30_encoding.md R107). -/
inductive Result where
  | data8 (v : Byte)
  | data16 (v : Half)
  | data32 (v : Dword)
  | done
  | mapped (index : Fin 6) (offset : Dword)
  | notMapped
  | chain (nodes : List Node)
  | found (node : Node)
  | absent
  | fault (reason : IntegrityReason)
  | refused (reason : RefuseReason)
deriving DecidableEq, Repr

/-- The state. `life`, `cfg` and `barState` are the block's (10_state.md R20). `requests` holds the request
words the agents present, the next one first, in the one total order of 20_memory.md R83; `result` is what the
last operation returned (30_encoding.md R107); these two are the model's own. -/
structure State where
  life     : Life
  cfg      : CfgBytes
  barState : Vector BarState 6
  requests : List Request
  result   : Option Result
deriving DecidableEq, Repr

/-- Faults that stop the machine. There is none: the one fault of the block, `LayoutIntegrityFault`, is a
result after which the machine goes on (60_exceptions.md R208, R209), and every other error condition is
absorbed (R202 to R204). -/
inductive Fault where
deriving DecidableEq, Repr

/-- What a step has no meaning for. The block's own `Refused(reason)` is a result, not one of these. -/
inductive Refusal where
  /-- Raised by `exec` for an operation that has no meaning yet; safe. No arm of `exec` raises it. -/
  | notModelled (mnemonic : String)
  /-- Raised by `step` when no request is presented: the block "has no step of its own" (00_scope.md R14), and
  a step is an operation (R13); safe. -/
  | noRequest
deriving DecidableEq, Repr

/-- What a step answers. -/
abbrev StepOutcome := Host.Outcome State Fault Refusal

/-- Every BAR at the start of its state machine (70_reset_and_hazards.md R232). -/
def allUnsized : Vector BarState 6 := Vector.replicate 6 .unsized

/-- The machine of a layout before any CONSTRUCT: `life` is Absent (10_state.md R62). `cfg` and `bar_state` hold no
value there; the model's choice, which no operation can show, is the reset image and `Unsized` (DESIGN CHOICE,
log 3). No request is presented and no result has been returned (log 1, log 5). -/
def State.resetOf (L : Layout) : State where
  life := .absent
  cfg := L.resetImage
  barState := allUnsized
  requests := []
  result := none

/-- This hardware before any CONSTRUCT. -/
def State.reset : State := State.resetOf layout

end Sys2Proof.Machine
end

