-- ==== Sys2Proof/Machine/Ops.lean ====
section
/-! DEFINITION. The named operations over the state: the read primitive and the byte merge of the write
primitive (40_config_access.md R131, R133), the lifecycle gate (R130), returning a result, refusing, and taking
the block's one fault (60_exceptions.md R208). There is no return from the fault (R209). -/

namespace Sys2Proof.Machine

/-- `rdbyte(o)`: the stored byte, or 0x00 beyond the extent (40_config_access.md R131, 20_memory.md R76). -/
def rdByte (L : Layout) (cfg : CfgBytes) (o : Nat) : Byte := if o < L.cfgSize then cfg.getD o 0 else 0

/-- Four bytes as a value, the first in bits [7:0] (20_memory.md R72). -/
def join4 (b0 b1 b2 b3 : Byte) : Dword := b3 ++ b2 ++ b1 ++ b0

/-- `MemRead(o, 1)` (40_config_access.md R131). -/
def memRead8 (L : Layout) (c : CfgBytes) (o : Nat) : Byte := rdByte L c o

/-- `MemRead(o, 2)` (40_config_access.md R131). -/
def memRead16 (L : Layout) (c : CfgBytes) (o : Nat) : Half := rdByte L c (o + 1) ++ rdByte L c o

/-- `MemRead(o, 4)` (40_config_access.md R131). -/
def memRead32 (L : Layout) (c : CfgBytes) (o : Nat) : Dword :=
  join4 (rdByte L c o) (rdByte L c (o + 1)) (rdByte L c (o + 2)) (rdByte L c (o + 3))

/-- The low `w` bytes of a value, `v[7:0]` first (20_memory.md R72; 30_encoding.md R103: the rest is ignored). -/
def bytesOf (w : Width) (v : Dword) : List Byte := (List.range w.bytes).map (byteAt v)

/-- A byte written under a write mask (40_config_access.md R133, step 1). -/
def mergeByte (wmask old new : Byte) : Byte := (old &&& ~~~wmask) ||| (new &&& wmask)

/-- One covered byte of a write (40_config_access.md R133, step 1): merged under its own mask inside the extent,
ignored beyond it (20_memory.md R76). -/
def storeByte (L : Layout) (cfg : CfgBytes) (a : Nat) (b : Byte) : CfgBytes :=
  if a < L.cfgSize then cfg.set a (mergeByte (L.wmask a) (cfg.getD a 0) b) else cfg

/-- Step 1 of the write primitive: every covered byte, from the offset up (40_config_access.md R133). -/
def storeBytes (L : Layout) (c : CfgBytes) (o : Nat) : List Byte → CfgBytes
  | [] => c
  | b :: bs => storeBytes L (storeByte L c o b) (o + 1) bs

/-- Return a result to the issuer (30_encoding.md R107). -/
def State.respond (s : State) (r : Result) : State := { s with result := some r }

/-- `refuse(reason)`: the operation is not performed, the state is unchanged, the issuer gets the result
(30_encoding.md R112). -/
def State.refuse (s : State) (r : RefuseReason) : State := s.respond (.refused r)

/-- The lifecycle gate (40_config_access.md R130). -/
def gate (s : State) (k : StepOutcome) : StepOutcome :=
  if s.life = .operational then k else .next (s.refuse .notOperational)

/-- `cfg` and `bar_state` as CONSTRUCT stores them (70_reset_and_hazards.md R231, R232). -/
def State.initialise (L : Layout) (s : State) : State :=
  { s with cfg := L.resetImage, barState := allUnsized }

/-- `cfg` and `bar_state` discarded: from here on they hold no value (10_state.md R62). What the fields hold
while there is no instance cannot be shown by any operation; the model puts the reset image and `Unsized`
there (DESIGN CHOICE, log 3), so that nothing survives. -/
def State.discard (L : Layout) (s : State) : State := s.initialise L

/-- Taking `LayoutIntegrityFault` in CONSTRUCT (60_exceptions.md R208): `life` becomes Failed, the contents are
discarded, the reason goes to the host. -/
def State.takeIntegrityFault (L : Layout) (s : State) (r : IntegrityReason) : State :=
  { s.discard L with life := .failed, result := some (.fault r) }

end Sys2Proof.Machine
end

