-- ==== Sys2Proof/Machine/Flags.lean ====
section
/-! DEFINITION. The block has no flags and no condition codes (10_state.md R65). The conditions its operations
test are the two decode enables of the Command register (41_bar_logic.md R160) and the all-ones test of a BAR
write (R153). -/

namespace Sys2Proof.Machine

/-- `io_en = cfg[0x04][0]` (41_bar_logic.md R160). -/
def ioEnable (L : Layout) (c : CfgBytes) : Bool := (rdByte L c 0x04).getLsbD 0

/-- `mem_en = cfg[0x04][1]` (41_bar_logic.md R160). -/
def memEnable (L : Layout) (c : CfgBytes) : Bool := (rdByte L c 0x04).getLsbD 1

/-- The decode enable of a space (41_bar_logic.md R161). -/
def decodeEnable (L : Layout) (c : CfgBytes) : Space → Bool
  | .io => ioEnable L c
  | .mem => memEnable L c

/-- The all-ones test on the writable bits of a candidate (41_bar_logic.md R153, D12). -/
def allOnes (mask cand : Dword) : Bool := cand &&& mask = mask

end Sys2Proof.Machine
end

