-- ==== Sys2Proof/Machine/Bar.lean ====
section
/-! DEFINITION. The BAR sizing and decode logic (41_bar_logic.md): the candidate of a write, the internal action
`onBarWrite`, the write primitive with its side effect (40_config_access.md R133), the current base and the
decode function. All over any layout. -/

namespace Sys2Proof.Machine

/-- The BAR indexes in ascending order (40_config_access.md R133, 41_bar_logic.md R161). -/
def barIndices : List (Fin 6) := [0, 1, 2, 3, 4, 5]

/-- Whether a write of `n` bytes at `o` touches BAR `i` (40_config_access.md R133, step 2). A BAR of size zero
takes no part (41_bar_logic.md R155). -/
def touchesBar (L : Layout) (i : Fin 6) (o n : Nat) : Bool :=
  (L.bar i).size ≠ 0 && o < (L.bar i).offset + 4 && (L.bar i).offset < o + n

/-- One byte of a candidate: the written byte where the write covers it, else the byte stored before the write
(41_bar_logic.md R152). -/
def candidateByte (L : Layout) (old : CfgBytes) (o : Nat) (bs : List Byte) (a : Nat) : Byte :=
  if o ≤ a ∧ a < o + bs.length then bs.getD (a - o) 0 else rdByte L old a

/-- `cand(i, o, n, v, old)` (41_bar_logic.md R152). -/
def candidate (L : Layout) (i : Fin 6) (o : Nat) (bs : List Byte) (old : CfgBytes) : Dword :=
  join4 (candidateByte L old o bs (L.bar i).offset) (candidateByte L old o bs ((L.bar i).offset + 1))
    (candidateByte L old o bs ((L.bar i).offset + 2)) (candidateByte L old o bs ((L.bar i).offset + 3))

/-- `onBarWrite(i, cand)` (41_bar_logic.md R153): it changes `bar_state[i]` and nothing else. -/
def onBarWrite (L : Layout) (bars : Vector BarState 6) (i : Fin 6) (cand : Dword) : Vector BarState 6 :=
  bars.set i (if allOnes (L.wmask32 i) cand then .sizing else .based)

/-- Step 2 of the write primitive: once per touched BAR, in ascending index order (40_config_access.md R133). -/
def barEffects (L : Layout) (o : Nat) (bs : List Byte) (old : CfgBytes) (bars : Vector BarState 6) :
    Vector BarState 6 :=
  barIndices.foldl
    (fun st i => if touchesBar L i o bs.length then onBarWrite L st i (candidate L i o bs old) else st) bars

/-- `MemWrite(o, n, v)` (40_config_access.md R133), `bs` the `n` bytes of `v`, the lowest first. -/
def memWrite (L : Layout) (o : Nat) (bs : List Byte) (s : State) : State :=
  { s with cfg := storeBytes L s.cfg o bs, barState := barEffects L o bs s.cfg s.barState }

/-- The register value of BAR `i`, `MemRead(BAR_OFF[i], 4)` (41_bar_logic.md R156). -/
def barValue (L : Layout) (c : CfgBytes) (i : Fin 6) : Dword := memRead32 L c (L.bar i).offset

/-- `base(i)` (41_bar_logic.md R157): the base of the BAR while it is `Based`. -/
def barBase (L : Layout) (c : CfgBytes) (i : Fin 6) : Dword := barValue L c i &&& L.wmask32 i

/-- Whether BAR `i` answers an address of a space whose enable is on (41_bar_logic.md R161, the condition of the
loop); the comparison is over the naturals (R165). -/
def barHits (L : Layout) (s : State) (sp : Space) (addr : Dword) (i : Fin 6) : Bool :=
  (L.bar i).size ≠ 0 && spaceOf (L.bar i).kind = some sp && s.barState[i] = .based &&
    (barBase L s.cfg i).toNat ≤ addr.toNat && addr.toNat < (barBase L s.cfg i).toNat + (L.bar i).size

/-- `decode(sp, addr)` (41_bar_logic.md R161): the lowest index that matches. -/
def decodeAddress (L : Layout) (s : State) (sp : Space) (addr : Dword) : Result :=
  if decodeEnable L s.cfg sp then
    match barIndices.find? (barHits L s sp addr) with
    | some i => .mapped i (addr - barBase L s.cfg i)
    | none => .notMapped
  else .notMapped

end Sys2Proof.Machine
end

