-- ==== Sys2Proof/Machine/BarDecode.lean ====
section
/-! DEFINITION. The two address decode queries (41_bar_logic.md R162, R163): pure answers from the current state, over
any layout (`…With`) and at this hardware's (`exec…`). -/

namespace Sys2Proof.Machine

/-- BAR_DECODE_MEM (41_bar_logic.md R162). -/
def barDecodeMemWith (L : Layout) (addr : Dword) (s : State) : StepOutcome :=
  gate s (.next (s.respond (decodeAddress L s .mem addr)))

/-- BAR_DECODE_IO (41_bar_logic.md R163). -/
def barDecodeIoWith (L : Layout) (addr : Dword) (s : State) : StepOutcome :=
  gate s (.next (s.respond (decodeAddress L s .io addr)))

/-- BAR_DECODE_MEM of this hardware. -/
def execBarDecodeMem (addr : Dword) (s : State) : StepOutcome := barDecodeMemWith layout addr s

/-- BAR_DECODE_IO of this hardware. -/
def execBarDecodeIo (addr : Dword) (s : State) : StepOutcome := barDecodeIoWith layout addr s

end Sys2Proof.Machine
end

