-- ==== Sys2Proof/Machine/Walker.lean ====
section
/-! DEFINITION. The capability chain walker (42_capability_chain.md): the walk under its hop bound, the lookup
and the integrity predicate, over any layout and any configuration bytes. -/

namespace Sys2Proof.Machine

/-- The payload of a node by its ID, read at the time of the walk (42_capability_chain.md R180). -/
def payloadAt (L : Layout) (c : CfgBytes) (base : Nat) (id : Byte) : Payload :=
  if id = 0x01 then .pm (memRead16 L c (base + 2)) (memRead16 L c (base + 4))
  else if id = 0x05 then .msi (memRead16 L c (base + 2)) (memRead32 L c (base + 4)) (memRead16 L c (base + 8))
  else .unknown

/-- The node at a pointer target: the ID is the first byte, the next pointer the second (30_encoding.md R110);
`p + 1` may lie beyond the extent (42_capability_chain.md R182). -/
def nodeAt (L : Layout) (c : CfgBytes) (p : Byte) : Node where
  base := p
  id := rdByte L c p.toNat
  next := rdByte L c (p.toNat + 1)
  payload := payloadAt L c p.toNat (rdByte L c p.toNat)

/-- The pointer targets visited from `p`, null nodes included, with `hops` visits left (42_capability_chain.md
R182, R183): a pointer that is still non-zero when none is left raises `HopLimit`. The pointer is used as
stored (D19). -/
def visitsFrom (L : Layout) (c : CfgBytes) : Nat → Byte → Except IntegrityReason (List Node)
  | hops, p =>
    if p = 0 then .ok []
    else
      match hops with
      | 0 => .error .hopLimit
      | hops + 1 => (visitsFrom L c hops (rdByte L c (p.toNat + 1))).map (nodeAt L c p :: ·)

/-- All visits of one walk: it starts at the stored Capability Pointer (42_capability_chain.md R182); its length
is the number of hops taken. -/
def visits (L : Layout) (c : CfgBytes) : Except IntegrityReason (List Node) :=
  visitsFrom L c L.maxHops (rdByte L c 0x34)

/-- `walk()`: the visited nodes without the null nodes, in visiting order (42_capability_chain.md R182, R184). -/
def walk (L : Layout) (c : CfgBytes) : Except IntegrityReason (List Node) :=
  (visits L c).map (·.filter fun n => n.id ≠ 0)

/-- The configured set of capabilities, as bases and IDs (42_capability_chain.md R187). -/
def configuredSet (L : Layout) : List (Nat × Byte) := [(L.msiBase, L.msiId), (L.pmBase, L.pmId)]

/-- `chain_ok()` (42_capability_chain.md R187): the walk returns, and it emitted exactly the configured set,
each once, in any order; the hop limit is met first (60_exceptions.md R207). -/
def chainOk (L : Layout) (c : CfgBytes) : Except IntegrityReason Unit :=
  match walk L c with
  | .error r => .error r
  | .ok ns => if (ns.map fun n => (n.base.toNat, n.id)).isPerm (configuredSet L) then .ok () else .error .wrongSet

/-- The result of CAP_WALK (42_capability_chain.md R185). -/
def walkResult (L : Layout) (c : CfgBytes) : Result :=
  match walk L c with
  | .ok ns => .chain ns
  | .error r => .fault r

/-- The result of CAP_FIND: the first node with the ID in chain order (42_capability_chain.md R186, D21). -/
def findResult (L : Layout) (c : CfgBytes) (id : Byte) : Result :=
  match walk L c with
  | .ok ns =>
    match ns.find? fun n => n.id = id with
    | some n => .found n
    | none => .absent
  | .error r => .fault r

end Sys2Proof.Machine
end

