-- ==== Sys2Proof/Machine/CapChain.lean ====
section
/-! DEFINITION. The two capability chain queries (42_capability_chain.md R185, R186), over any layout (`…With`) and at
this hardware's (`exec…`). A fault the walk raises here is the result and changes nothing (60_exceptions.md R208). -/

namespace Sys2Proof.Machine

/-- CAP_WALK (42_capability_chain.md R185). -/
def capWalkWith (L : Layout) (s : State) : StepOutcome := gate s (.next (s.respond (walkResult L s.cfg)))

/-- CAP_FIND (42_capability_chain.md R186). -/
def capFindWith (L : Layout) (id : Byte) (s : State) : StepOutcome :=
  gate s (.next (s.respond (findResult L s.cfg id)))

/-- CAP_WALK of this hardware. -/
def execCapWalk (s : State) : StepOutcome := capWalkWith layout s

/-- CAP_FIND of this hardware. -/
def execCapFind (id : Byte) (s : State) : StepOutcome := capFindWith layout id s

end Sys2Proof.Machine
end

