-- ==== Sys2Proof/Machine/Operands.lean ====
section
/-! DEFINITION. The operand forms (30_encoding.md R102, R103): every operand is used as an unsigned value,
never scaled, aligned, shifted or sign-extended. -/

namespace Sys2Proof.Machine

/-- The byte offset an access starts at: `off` as is (30_encoding.md R102), a natural number, so that an access
running past 0xFFFF does not wrap (20_memory.md R71). -/
def accessOffset (off : Half) : Nat := off.toNat

/-- Write data of an 8-bit write, `dat[7:0]`. -/
def writeData8 (dat : Byte) : Dword := dat.setWidth 32

/-- Write data of a 16-bit write, `dat[15:0]`. -/
def writeData16 (dat : Half) : Dword := dat.setWidth 32

/-- Write data of a 32-bit write, `dat[31:0]`. -/
def writeData32 (dat : Dword) : Dword := dat

end Sys2Proof.Machine
end

