-- ==== Sys2Proof/Machine/ConfigAccess.lean ====
section
/-! DEFINITION. The six configuration accesses (40_config_access.md R134 to R139), over any layout (`…With`) and at
this hardware's (`exec…`). -/

namespace Sys2Proof.Machine

/-- A configuration write of any width: gate, `MemWrite`, `Done` (40_config_access.md R137 to R139). -/
def configWrite (L : Layout) (w : Width) (off : Half) (v : Dword) (s : State) : StepOutcome :=
  gate s (.next ((memWrite L (accessOffset off) (bytesOf w v) s).respond .done))

/-- CFG_RD8 (40_config_access.md R134). -/
def cfgRd8With (L : Layout) (off : Half) (s : State) : StepOutcome :=
  gate s (.next (s.respond (.data8 (memRead8 L s.cfg (accessOffset off)))))

/-- CFG_RD16 (40_config_access.md R135). -/
def cfgRd16With (L : Layout) (off : Half) (s : State) : StepOutcome :=
  gate s (.next (s.respond (.data16 (memRead16 L s.cfg (accessOffset off)))))

/-- CFG_RD32 (40_config_access.md R136). -/
def cfgRd32With (L : Layout) (off : Half) (s : State) : StepOutcome :=
  gate s (.next (s.respond (.data32 (memRead32 L s.cfg (accessOffset off)))))

/-- CFG_WR8 (40_config_access.md R137). -/
def cfgWr8With (L : Layout) (off : Half) (dat : Byte) (s : State) : StepOutcome :=
  configWrite L .byte off (writeData8 dat) s

/-- CFG_WR16 (40_config_access.md R138). -/
def cfgWr16With (L : Layout) (off : Half) (dat : Half) (s : State) : StepOutcome :=
  configWrite L .word off (writeData16 dat) s

/-- CFG_WR32 (40_config_access.md R139). -/
def cfgWr32With (L : Layout) (off : Half) (dat : Dword) (s : State) : StepOutcome :=
  configWrite L .dword off (writeData32 dat) s

/-- CFG_RD8 of this hardware. -/
def execCfgRd8 (off : Half) (s : State) : StepOutcome := cfgRd8With layout off s

/-- CFG_RD16 of this hardware. -/
def execCfgRd16 (off : Half) (s : State) : StepOutcome := cfgRd16With layout off s

/-- CFG_RD32 of this hardware. -/
def execCfgRd32 (off : Half) (s : State) : StepOutcome := cfgRd32With layout off s

/-- CFG_WR8 of this hardware. -/
def execCfgWr8 (off : Half) (dat : Byte) (s : State) : StepOutcome := cfgWr8With layout off dat s

/-- CFG_WR16 of this hardware. -/
def execCfgWr16 (off : Half) (dat : Half) (s : State) : StepOutcome := cfgWr16With layout off dat s

/-- CFG_WR32 of this hardware. -/
def execCfgWr32 (off : Half) (dat : Dword) (s : State) : StepOutcome := cfgWr32With layout off dat s

end Sys2Proof.Machine
end

