-- ==== Sys2Proof/Machine/Lifecycle.lean ====
section
/-! DEFINITION. Construction and teardown (70_reset_and_hazards.md R230, R234), over any layout; the operations
of this hardware are these at its own layout. -/

namespace Sys2Proof.Machine

/-- CONSTRUCT of a layout (70_reset_and_hazards.md R230 to R233): refused unless `life` is Absent; stores the
reset image, sets every BAR `Unsized`, and runs the integrity check on the image. -/
def constructWith (L : Layout) (s : State) : StepOutcome :=
  if s.life = .absent then
    match chainOk L (s.initialise L).cfg with
    | .ok () => .next ({ s.initialise L with life := .operational }.respond .done)
    | .error r => .next (s.takeIntegrityFault L r)
  else .next (s.refuse .alreadyConstructed)

/-- TEARDOWN of a layout (70_reset_and_hazards.md R234): accepted from Operational and from Failed. -/
def teardownWith (L : Layout) (s : State) : StepOutcome :=
  if s.life = .absent then .next (s.refuse .notOperational)
  else .next ({ s.discard L with life := .absent }.respond .done)

/-- CONSTRUCT of this hardware (70_reset_and_hazards.md R230). -/
def execConstruct (s : State) : StepOutcome := constructWith layout s

/-- TEARDOWN of this hardware (70_reset_and_hazards.md R234). -/
def execTeardown (s : State) : StepOutcome := teardownWith layout s

end Sys2Proof.Machine
end

