-- ==== Sys2Proof/Machine/AnyLayout.lean ====
section
/-! DEFINITION. The machine over any layout (00_scope.md R9: "state the machine over any well-formed layout"). The
machine of this hardware, `exec` and `step`, is this one at `layout` (log 16). -/

namespace Sys2Proof.Machine

/-- The meaning of each operation, of a layout. -/
def execWith (L : Layout) (i : Instr) (s : State) : StepOutcome :=
  match i with
  | .cfgRd8 off => cfgRd8With L off s
  | .cfgRd16 off => cfgRd16With L off s
  | .cfgRd32 off => cfgRd32With L off s
  | .cfgWr8 off dat => cfgWr8With L off dat s
  | .cfgWr16 off dat => cfgWr16With L off dat s
  | .cfgWr32 off dat => cfgWr32With L off dat s
  | .barDecodeMem addr => barDecodeMemWith L addr s
  | .barDecodeIo addr => barDecodeIoWith L addr s
  | .capWalk => capWalkWith L s
  | .capFind id => capFindWith L id s
  | .construct => constructWith L s
  | .teardown => teardownWith L s

/-- The next request is taken, decoded and performed as `perform` says (00_scope.md R13). Decoding comes before
everything (60_exceptions.md R207): an illegal word is refused whatever `life` is (30_encoding.md R105). With no
request presented there is no step (00_scope.md R14; log 7). -/
def performNext (perform : Instr → State → StepOutcome) (s : State) : StepOutcome :=
  match s.requests with
  | [] => .refused .noRequest
  | w :: rest =>
    match decode w with
    | .op i => perform i { s with requests := rest }
    | .illegal => .next ({ s with requests := rest }.refuse .illegalOp)

/-- One step of the machine of a layout. -/
def stepWith (L : Layout) (s : State) : StepOutcome := performNext (execWith L) s

end Sys2Proof.Machine
end

