-- ==== Sys2Proof/Machine/Dispatch.lean ====
section
/-! DEFINITION. The meaning of each operation, one arm per row of the opcode table. -/

namespace Sys2Proof.Machine

-- The result of an operation is the next state's `result`; requests are taken off their list by `step`.
def exec (i : Instr) (s : State) : Host.Outcome State Fault Refusal :=
  match i with
  | .cfgRd8 off => Sys2Proof.Machine.execCfgRd8 off s
  | .cfgRd16 off => Sys2Proof.Machine.execCfgRd16 off s
  | .cfgRd32 off => Sys2Proof.Machine.execCfgRd32 off s
  | .cfgWr8 off dat => Sys2Proof.Machine.execCfgWr8 off dat s
  | .cfgWr16 off dat => Sys2Proof.Machine.execCfgWr16 off dat s
  | .cfgWr32 off dat => Sys2Proof.Machine.execCfgWr32 off dat s
  | .barDecodeMem addr => Sys2Proof.Machine.execBarDecodeMem addr s
  | .barDecodeIo addr => Sys2Proof.Machine.execBarDecodeIo addr s
  | .capWalk => Sys2Proof.Machine.execCapWalk s
  | .capFind id => Sys2Proof.Machine.execCapFind id s
  | .construct => Sys2Proof.Machine.execConstruct s
  | .teardown => Sys2Proof.Machine.execTeardown s

end Sys2Proof.Machine
end

