-- ==== Sys2Proof/Machine/Step.lean ====
section
/-! DEFINITION. One step is one operation (00_scope.md R13, 70_reset_and_hazards.md R244): the next request is
taken, decoded and performed. -/

namespace Sys2Proof.Machine

/-- One step of this hardware. -/
def step (s : State) : Host.Outcome State Fault Refusal := performNext exec s

/-- The state in which the given opcode-table word is the next request presented. -/
def State.withFetchWord (s : State) (nbits w : Nat) : State :=
  { s with requests := requestOfTable nbits w :: s.requests }

end Sys2Proof.Machine
end

