-- ==== Sys2Proof/Machine/Assembler.lean ====
section
/-! DEFINITION. The spec's notation for operation sequences: the textual syntax (30_encoding.md R116) and the
pseudo-operations with their expansions (R117). For use in programs only; no operation depends on it. -/

namespace Sys2Proof

/-- A number in hexadecimal with `0x` (30_encoding.md R116), digits in capitals, no padding (DESIGN CHOICE,
log 15). -/
def hexText (n : Nat) : String := "0x" ++ String.ofList ((Nat.toDigits 16 n).map Char.toUpper)

/-- The line of assembler text for an operation (30_encoding.md R116). -/
def Instr.asmText : Instr → String
  | .cfgRd8 off => "rd8 " ++ hexText off.toNat
  | .cfgRd16 off => "rd16 " ++ hexText off.toNat
  | .cfgRd32 off => "rd32 " ++ hexText off.toNat
  | .cfgWr8 off dat => "wr8 " ++ hexText off.toNat ++ ", " ++ hexText dat.toNat
  | .cfgWr16 off dat => "wr16 " ++ hexText off.toNat ++ ", " ++ hexText dat.toNat
  | .cfgWr32 off dat => "wr32 " ++ hexText off.toNat ++ ", " ++ hexText dat.toNat
  | .barDecodeMem addr => "dmem " ++ hexText addr.toNat
  | .barDecodeIo addr => "dio " ++ hexText addr.toNat
  | .capWalk => "walk"
  | .capFind id => "find " ++ hexText id.toNat
  | .construct => "construct"
  | .teardown => "teardown"

namespace Machine

/-- `BAR_OFF[i]` as the offset operand of an access. -/
def barOffset (i : Fin 6) : Half := BitVec.ofNat 16 (layout.bar i).offset

/-- `size_bar i` (30_encoding.md R117): its read returns the size mask of BAR `i`. -/
def sizeBar (i : Fin 6) : List Instr := [.cfgWr32 (barOffset i) 0xFFFFFFFF, .cfgRd32 (barOffset i)]

/-- `set_bar i, a` (30_encoding.md R117): its read returns the stored BAR value. -/
def setBar (i : Fin 6) (a : Dword) : List Instr := [.cfgWr32 (barOffset i) a, .cfgRd32 (barOffset i)]

/-- `enable io` (30_encoding.md R117). -/
def enableIo : List Instr := [.cfgWr16 0x04 0x0001]

/-- `enable mem` (30_encoding.md R117). -/
def enableMem : List Instr := [.cfgWr16 0x04 0x0002]

/-- `enable both` (30_encoding.md R117). -/
def enableBoth : List Instr := [.cfgWr16 0x04 0x0003]

/-- `reset` (30_encoding.md R117, 70_reset_and_hazards.md R235): a fresh instance. -/
def resetInstance : List Instr := [.teardown, .construct]

end Machine

end Sys2Proof
end

