-- ==== Sys2Proof/Safety.lean ====
section
/-! DEFINITION. The terms in which claims about the block are made: the invariants of its runs (10_state.md R26,
41_bar_logic.md R159), what a guest can be answered (60_exceptions.md R205), what an outside observer can tell
apart, and the accesses of any width as operations. -/

namespace Sys2Proof.Machine

/-- The stored-value invariant (10_state.md R26): no byte differs from its reset value in a bit that cannot be
written. -/
def StoredBitsHold (L : Layout) (cfg : CfgBytes) : Prop :=
  ∀ o < L.cfgSize, rdByte L cfg o &&& ~~~(L.wmask o) = L.rst o &&& ~~~(L.wmask o)

/-- State and register value of one BAR correspond (41_bar_logic.md R159). -/
structure BarCorresponds (L : Layout) (s : State) (i : Fin 6) : Prop where
  fixedBits : barValue L s.cfg i &&& ~~~(L.wmask32 i) = (L.bar i).reset
  sizing : s.barState[i] = .sizing → barValue L s.cfg i = L.sizeMask i
  based : s.barState[i] = .based → barValue L s.cfg i ≠ L.sizeMask i
  unsized : s.barState[i] = .unsized → barValue L s.cfg i = (L.bar i).reset

/-- What holds of an operational instance in every reachable state: `CFG_SIZE` bytes (10_state.md R21), the
stored-value invariant, and the correspondence for every BAR in use. -/
structure InstanceInv (L : Layout) (s : State) : Prop where
  extent : s.cfg.length = L.cfgSize
  stored : StoredBitsHold L s.cfg
  bars : ∀ i : Fin 6, (L.bar i).size ≠ 0 → BarCorresponds L s i

/-- What holds of the block in every reachable state. -/
def State.Inv (L : Layout) (s : State) : Prop := s.life = .operational → InstanceInv L s

/-- The answers a guest's access can get from an operational instance (30_encoding.md R107, 60_exceptions.md
R205): data or `Done`, never a fault and never a refusal. -/
def Result.isGuestAnswer : Result → Bool
  | .data8 _ | .data16 _ | .data32 _ | .done => true
  | .mapped _ _ | .notMapped | .chain _ | .found _ | .absent | .fault _ | .refused _ => false

/-- Two states that differ at most in what `cfg` and `bar_state` hold while there is no operational instance,
where the spec says they hold no value (10_state.md R62). -/
def SameBlock (s t : State) : Prop :=
  s.life = t.life ∧ s.requests = t.requests ∧ s.result = t.result ∧
    (s.life = .operational → s.cfg = t.cfg ∧ s.barState = t.barState)

/-- The configuration read of a width at an offset. -/
def readOp (w : Width) (off : Half) : Instr :=
  match w with
  | .byte => .cfgRd8 off
  | .word => .cfgRd16 off
  | .dword => .cfgRd32 off

/-- The configuration write of a width at an offset, of the low bytes of a value. -/
def writeOp (w : Width) (off : Half) (v : Dword) : Instr :=
  match w with
  | .byte => .cfgWr8 off (v.setWidth 8)
  | .word => .cfgWr16 off (v.setWidth 16)
  | .dword => .cfgWr32 off v

/-- The decode query of a space. -/
def decodeOp (sp : Space) (addr : Dword) : Instr :=
  match sp with
  | .io => .barDecodeIo addr
  | .mem => .barDecodeMem addr

/-- The result of a read of a width that returns the low bytes of a value. -/
def dataResult (w : Width) (v : Dword) : Result :=
  match w with
  | .byte => .data8 (v.setWidth 8)
  | .word => .data16 (v.setWidth 16)
  | .dword => .data32 v

/-- The byte a read of this hardware sees at any offset (20_memory.md R76). -/
def byteSeen (cfg : CfgBytes) (o : Nat) : Byte := if o < 256 then cfg.getD o 0 else 0

/-- The operations that only ask: the reads, the decode queries and the chain queries. -/
def isQuery : Instr → Bool
  | .cfgRd8 _ | .cfgRd16 _ | .cfgRd32 _ => true
  | .barDecodeMem _ | .barDecodeIo _ | .capWalk | .capFind _ => true
  | .cfgWr8 _ _ | .cfgWr16 _ _ | .cfgWr32 _ _ => false
  | .construct | .teardown => false

/-- The field map as 10_state.md R25 prints it, row by row: name, offset, width in bytes, reset value, writable mask
and class; the five OPEN reset values by name. -/
def printedFieldMap : List (FieldName × Nat × Nat × Dword × Dword × AccessClass) :=
  [(.VID, 0x00, 2, 0x8086, 0x0000, .readOnlyConstant), (.DID, 0x02, 2, 0x8C80, 0x0000, .readOnlyConstant),
    (.CMD, 0x04, 2, 0x0000, 0xFFFF, .readWriteSideEffect), (.STS, 0x06, 2, 0x02B0, 0x0000, .readOnlyStatus),
    (.REV, 0x08, 1, 0x00, 0x00, .readOnlyConstant), (.PI, 0x09, 1, 0x01, 0x00, .readOnlyConstant),
    (.SCC, 0x0A, 1, 0x06, 0x00, .readOnlyConstant), (.BCC, 0x0B, 1, 0x01, 0x00, .readOnlyConstant),
    (.BAR0, 0x10, 4, 0x00000001, 0xFFFFFFF8, .readWriteSideEffect),
    (.BAR1, 0x14, 4, 0x00000001, 0xFFFFFFFC, .readWriteSideEffect),
    (.BAR2, 0x18, 4, 0x00000001, 0xFFFFFFF8, .readWriteSideEffect),
    (.BAR3, 0x1C, 4, 0x00000001, 0xFFFFFFFC, .readWriteSideEffect),
    (.BAR4, 0x24, 4, 0x00000001, 0xFFFFFFE0, .readWriteSideEffect),
    (.BAR5, 0x28, 4, 0x00000000, 0xFFFFFC00, .readWriteSideEffect),
    (.CAPPTR, 0x34, 1, 0x80, 0x00, .readOnlyConstant), (.INTLN, 0x3C, 1, 0x0B, 0xFF, .readWrite),
    (.INTPN, 0x3D, 1, 0x02, 0x00, .readOnlyConstant)] ++
  [(.PM_ID, 0x70, 1, 0x01, 0x00, .readOnlyConstant), (.PM_NEXT, 0x71, 1, 0xA8, 0x00, .readOnlyConstant),
    (.PMC, 0x72, 2, Config.pmcReset.setWidth 32, 0x0000, .readOnlyConstant),
    (.PMCS, 0x74, 2, Config.pmcsReset.setWidth 32, 0xFFFF, .readWrite),
    (.MSI_ID, 0x80, 1, 0x05, 0x00, .readOnlyConstant), (.MSI_NEXT, 0x81, 1, 0x70, 0x00, .readOnlyConstant),
    (.MSI_MC, 0x82, 2, Config.msiMcReset.setWidth 32, 0xFFFF, .readWrite),
    (.MSI_MA, 0x84, 4, Config.msiMaReset, 0xFFFFFFFF, .readWrite),
    (.MSI_MD, 0x88, 2, Config.msiMdReset.setWidth 32, 0xFFFF, .readWrite)]

/-- The byte image after construction, as 10_state.md R66 prints it; the five OPEN values by name. -/
def printedImage : List Byte :=
  [0x86, 0x80, 0x80, 0x8C, 0x00, 0x00, 0xB0, 0x02, 0x00, 0x01, 0x06, 0x01, 0x00, 0x00, 0x00, 0x00] ++
  [0x01, 0x00, 0x00, 0x00, 0x01, 0x00, 0x00, 0x00, 0x01, 0x00, 0x00, 0x00, 0x01, 0x00, 0x00, 0x00] ++
  [0x00, 0x00, 0x00, 0x00, 0x01, 0x00, 0x00, 0x00, 0x00, 0x00, 0x00, 0x00, 0x00, 0x00, 0x00, 0x00] ++
  [0x00, 0x00, 0x00, 0x00, 0x80, 0x00, 0x00, 0x00, 0x00, 0x00, 0x00, 0x00, 0x0B, 0x02, 0x00, 0x00] ++
  List.replicate 48 0x00 ++
  [0x01, 0xA8, Config.pmcReset.extractLsb' 0 8, Config.pmcReset.extractLsb' 8 8,
    Config.pmcsReset.extractLsb' 0 8, Config.pmcsReset.extractLsb' 8 8] ++ List.replicate 10 0x00 ++
  [0x05, 0x70, Config.msiMcReset.extractLsb' 0 8, Config.msiMcReset.extractLsb' 8 8,
    Config.msiMaReset.extractLsb' 0 8, Config.msiMaReset.extractLsb' 8 8,
    Config.msiMaReset.extractLsb' 16 8, Config.msiMaReset.extractLsb' 24 8,
    Config.msiMdReset.extractLsb' 0 8, Config.msiMdReset.extractLsb' 8 8] ++ List.replicate 6 0x00 ++
  List.replicate 112 0x00

/-- The write mask of every byte, read off the column "wmask" of 10_state.md R25. -/
def printedMask (o : Nat) : Byte :=
  if o = 0x10 ∨ o = 0x18 then 0xF8
  else if o = 0x14 ∨ o = 0x1C ∨ o = 0x29 then 0xFC
  else if o = 0x24 then 0xE0
  else if o = 0x28 then 0x00
  else if o = 0x04 ∨ o = 0x05 ∨ (0x10 ≤ o ∧ o ≤ 0x1F) ∨ (0x24 ≤ o ∧ o ≤ 0x2B) ∨ o = 0x3C ∨ o = 0x74 ∨ o = 0x75 ∨
    (0x82 ≤ o ∧ o ≤ 0x89) then 0xFF
  else 0x00

/-- The reserved offsets as 40_config_access.md R142 lists them, and every offset from 0x100 up. -/
def ReservedOffset (o : Nat) : Prop :=
  (0x0C ≤ o ∧ o ≤ 0x0F) ∨ (0x20 ≤ o ∧ o ≤ 0x23) ∨ (0x2C ≤ o ∧ o ≤ 0x33) ∨ (0x35 ≤ o ∧ o ≤ 0x3B) ∨
    (0x3E ≤ o ∧ o ≤ 0x6F) ∨ (0x76 ≤ o ∧ o ≤ 0x7F) ∨ 0x8A ≤ o

/-- The address lies in the window of BAR `i` in a space (41_bar_logic.md R157, R161): BAR0 to BAR4 have I/O
windows and BAR5 a memory window, and only a `Based` BAR has one. -/
def InWindow (s : State) (sp : Space) (addr : Dword) (i : Fin 6) : Prop :=
  (i.val < 5 ↔ sp = .io) ∧ s.barState[i] = .based ∧ (barBase layout s.cfg i).toNat ≤ addr.toNat ∧
    addr.toNat < (barBase layout s.cfg i).toNat + (layout.bar i).size

/-- The MSI node with the payload as stored now (42_capability_chain.md R180, R185). -/
def msiNode (cfg : CfgBytes) : Node :=
  ⟨0x80, 0x05, 0x70,
    .msi (byteSeen cfg 0x83 ++ byteSeen cfg 0x82)
      (byteSeen cfg 0x87 ++ byteSeen cfg 0x86 ++ byteSeen cfg 0x85 ++ byteSeen cfg 0x84)
      (byteSeen cfg 0x89 ++ byteSeen cfg 0x88)⟩

/-- The Power-Management node with the payload as stored now (42_capability_chain.md R180, R185). -/
def pmNode (cfg : CfgBytes) : Node :=
  ⟨0x70, 0x01, 0xA8,
    .pm (byteSeen cfg 0x73 ++ byteSeen cfg 0x72) (byteSeen cfg 0x75 ++ byteSeen cfg 0x74)⟩

/-- The walker's pointer after a number of hops (42_capability_chain.md R182: `p <- nxt`). -/
def pointerAfter (L : Layout) (cfg : CfgBytes) (p : Byte) : Nat → Byte
  | 0 => p
  | k + 1 => pointerAfter L cfg (rdByte L cfg (p.toNat + 1)) k

end Sys2Proof.Machine
end

