-- ==== Sys2Proof/Certificates/Slice0/Obligations.lean ====
section
/-! DEFINITION. The statements about the block, each from the rules its docstring names. In the statements about
writes, reads and decode queries, `writeOp w off v` is CFG_WR8, CFG_WR16 or CFG_WR32 by the width `w`, `readOp w off`
the read of that width, and `decodeOp sp addr` is BAR_DECODE_IO or BAR_DECODE_MEM by the space; `byteSeen cfg o` is the
stored byte, or 0x00 beyond the extent. `exec` and `step` are this hardware's machine, `execWith L` and `stepWith L` the
machine of any layout (log 16). That configuration space holds `CFG_SIZE` bytes is an invariant (log 8), and a premise
where a statement needs it. Where a docstring says "derived" or "decision", the spec marks the rule so itself
(log 9). -/

open Sys2Proof Sys2Proof.Machine

/-! ### Encoding -/

/-- Decode and encode agree for all twelve operations, with every operand at every value (30_encoding.md R100 to
R103, decision D16). -/
def Obligations.EveryOperationDecodesFromItsEncoding : Prop := ∀ i : Instr, decode (encode i) = .op i

/-- 30_encoding.md R104 (decision D16): ignored fields take no part in decoding, and an assembler writes zero in them. -/
def Obligations.IgnoredFieldsTakeNoPart : Prop :=
  (∀ (w w' : Request) (i : Instr), decode w = .op i → w &&& i.usedBits = w' &&& i.usedBits → decode w' = .op i) ∧
    ∀ i : Instr, encode i &&& ~~~i.usedBits = 0

/-- 30_encoding.md R105 (decision D16): a word is illegal exactly when its `op` field is none of the twelve codes, and a
step on it only refuses it. -/
def Obligations.IllegalExactlyOutsideTheTable : Prop :=
  (∀ w : Request, decode w = .illegal ↔
    w.extractLsb' 56 8 ∉ ([0x01, 0x02, 0x04, 0x11, 0x12, 0x14, 0x20, 0x21, 0x30, 0x31, 0xF0, 0xFF] : List Byte)) ∧
  ∀ (s : State) (w : Request) (rest : List Request), s.requests = w :: rest → decode w = .illegal →
    step s = .next { s with requests := rest, result := some (.refused .illegalOp) }

/-- The other direction of the round trip: a word that decodes is the encoding of its operation, up to the ignored
bits (30_encoding.md R100 to R104). -/
def Obligations.DecodedWordReencodes : Prop :=
  ∀ (w : Request) (i : Instr), decode w = .op i → encode i = w &&& i.usedBits

/-- Words the spec itself writes out (95_test_vectors.md), one or more of each family. -/
def Obligations.WordsOfTheSpecDecode : Prop :=
  decode 0x0100003400000000 = .op (.cfgRd8 0x34) ∧ decode 0x0200003C00000000 = .op (.cfgRd16 0x3C) ∧
  decode 0x0400FFFF00000000 = .op (.cfgRd32 0xFFFF) ∧ decode 0x1100003C12345605 = .op (.cfgWr8 0x3C 0x05) ∧
  decode 0x1200000400000003 = .op (.cfgWr16 0x04 0x0003) ∧
  decode 0x1400008612345678 = .op (.cfgWr32 0x86 0x12345678) ∧
  decode 0x20000000FEB12138 = .op (.barDecodeMem 0xFEB12138) ∧ decode 0x210000000000C023 = .op (.barDecodeIo 0xC023) ∧
  decode 0x3000000000000000 = .op .capWalk ∧ decode 0x31000000ABCDEF05 = .op (.capFind 0x05) ∧
  decode 0xF000000000000000 = .op .construct ∧ decode 0xFF00000000000000 = .op .teardown ∧
  decode 0x0300000000000000 = .illegal ∧ decode 0x04FF001000000000 = .op (.cfgRd32 0x10)

/-! ### The step -/

/-- A step performs the operation the next request decodes to, on the state without that request; so it does for the
word an assembler writes, and for a word placed by `withFetchWord`. -/
def Obligations.StepPerformsTheNextRequest : Prop :=
  (∀ (s : State) (w : Request) (rest : List Request) (i : Instr), s.requests = w :: rest → decode w = .op i →
    step s = exec i { s with requests := rest }) ∧
  (∀ (s : State) (rest : List Request) (i : Instr), s.requests = encode i :: rest →
    step s = exec i { s with requests := rest }) ∧
  ∀ (s : State) (i : Instr), step (s.withFetchWord 64 (encode i).toNat) = exec i s

/-- Every request is answered: the step takes exactly that request and returns a result, in every state
(20_memory.md R79: "No operation blocks or suspends"). -/
def Obligations.StepAnswersEveryRequest : Prop :=
  ∀ (s : State) (w : Request) (rest : List Request), s.requests = w :: rest →
    ∃ t r, step s = .next t ∧ t.requests = rest ∧ t.result = some r

/-- The only stop of the machine: a step with no request presented (00_scope.md R14; that it is a refusal is the
model's choice, log 7). -/
def Obligations.StepStopsOnlyWithoutARequest : Prop :=
  ∀ s : State, (s.requests = [] → step s = .refused .noRequest) ∧
    (∀ q, step s = .refused q → s.requests = [] ∧ q = .noRequest) ∧ ∀ f, step s ≠ .fault f

/-! ### Lifecycle -/

/-- 40_config_access.md R130 (decision D18): without an operational instance every operation but CONSTRUCT and TEARDOWN
is refused and changes nothing. -/
def Obligations.GateRefusesWithoutAnInstance : Prop :=
  ∀ (s : State) (i : Instr), s.life ≠ .operational → i ≠ .construct → i ≠ .teardown →
    exec i s = .next { s with result := some (.refused .notOperational) }

/-- CONSTRUCT completes from Absent and leaves the state of 10_state.md R66: Operational, every BAR Unsized, and the
printed byte image, whatever the OPEN values are. -/
def Obligations.ConstructLeavesTheResetState : Prop :=
  ∀ s : State, s.life = .absent →
    ∃ t, exec .construct s = .next t ∧ t.life = .operational ∧ t.requests = s.requests ∧ t.result = some .done ∧
      (∀ i : Fin 6, t.barState[i] = .unsized) ∧ t.cfg = printedImage

/-- CONSTRUCT on an instance that exists is refused and changes nothing (70_reset_and_hazards.md R230,
decision D18). -/
def Obligations.SecondConstructIsRefused : Prop :=
  ∀ s : State, s.life ≠ .absent → exec .construct s = .next { s with result := some (.refused .alreadyConstructed) }

/-- 70_reset_and_hazards.md R234 (decision D18): TEARDOWN is refused from Absent, accepted from Operational and from
Failed, and a following CONSTRUCT gives the same fresh instance whatever had been written before. -/
def Obligations.TeardownDestroysTheInstance : Prop :=
  (∀ s : State, s.life = .absent → exec .teardown s = .next { s with result := some (.refused .notOperational) }) ∧
  ∀ s : State, s.life ≠ .absent →
    ∃ t, exec .teardown s = .next t ∧ t.life = .absent ∧ t.requests = s.requests ∧ t.result = some .done ∧
      exec .construct t = .next
        { life := .operational, cfg := layout.resetImage, barState := allUnsized, requests := s.requests,
          result := some .done }

/-- What `cfg` and `bar_state` hold while there is no operational instance cannot be observed: two states that differ
in nothing else answer alike, step by step (10_state.md R62: they "hold no value"). So nothing depends on the contents
the model chooses to name there (log 3). -/
def Obligations.ContentsWithoutAnInstanceAreUnobservable : Prop :=
  ∀ s s' : State, SameBlock s s' →
    (∀ t, step s = .next t → ∃ t', step s' = .next t' ∧ SameBlock t t') ∧
    ∀ r, step s = .refused r → step s' = .refused r

/-- Only CONSTRUCT and TEARDOWN write `life` (10_state.md R62). -/
def Obligations.OnlyLifecycleOperationsChangeLife : Prop :=
  ∀ (i : Instr) (s t : State), exec i s = .next t → t.life ≠ s.life →
    (i = .construct ∧ s.life = .absent ∧ t.life = .operational) ∨ (i = .teardown ∧ t.life = .absent)

/-- 60_exceptions.md R209, over any layout: where the integrity check raises a reason, CONSTRUCT makes the instance Failed
and returns the fault (R208); the Failed instance refuses every operation but TEARDOWN; after TEARDOWN a new CONSTRUCT
of the same layout fails the same way. -/
def Obligations.FailedIntegrityCheckAbortsConstruction : Prop :=
  ∀ (L : Layout) (s : State) (r : IntegrityReason), s.life = .absent → chainOk L L.resetImage = .error r →
    ∃ t, execWith L .construct s = .next t ∧ t.life = .failed ∧ t.requests = s.requests ∧
      t.result = some (.fault r) ∧
      (∀ i : Instr, i ≠ .teardown → ∃ q, execWith L i t = .next { t with result := some (.refused q) }) ∧
      ∃ u, execWith L .teardown t = .next u ∧ u.life = .absent ∧ u.result = some .done ∧
        ∃ v, execWith L .construct u = .next v ∧ v.life = .failed ∧ v.result = some (.fault r)

/-- 42_capability_chain.md R187 (decision D20), over any layout and any bytes: the check passes exactly when the walk
returns and emitted the two configured capabilities, each once, in either order; it raises `HopLimit` when the walk
does, and `WrongSet` otherwise. -/
def Obligations.IntegrityCheckAcceptsTheConfiguredSet : Prop :=
  ∀ (L : Layout) (cfg : CfgBytes),
    let msi : Nat × Byte := (L.msiBase, L.msiId)
    let pm : Nat × Byte := (L.pmBase, L.pmId)
    (chainOk L cfg = .ok () ↔
      ∃ ns, walk L cfg = .ok ns ∧
        (ns.map (fun n => (n.base.toNat, n.id)) = [msi, pm] ∨ ns.map (fun n => (n.base.toNat, n.id)) = [pm, msi])) ∧
    (chainOk L cfg = .error .hopLimit ↔ walk L cfg = .error .hopLimit) ∧
    (chainOk L cfg = .error .wrongSet ↔ chainOk L cfg ≠ .ok () ∧ chainOk L cfg ≠ .error .hopLimit)

/-- This hardware's layout is sound: from a state that is not Failed and meets the invariant no step makes it Failed
or returns a layout integrity fault (42_capability_chain.md R188, derived; 70_reset_and_hazards.md R230: "for the layout
of this hardware the result is always `Done`"). -/
def Obligations.ThisHardwareNeverFaults : Prop :=
  ∀ s t : State, s.Inv layout → s.life ≠ .failed → step s = .next t →
    t.life ≠ .failed ∧ ∀ r, t.result ≠ some (.fault r)

/-! ### Configuration reads and writes -/

/-- The three reads complete on every operational instance at every offset, change nothing, and return the bytes seen
from the offset up, the first in bits [7:0] (40_config_access.md R131, R134 to R136; 20_memory.md R72, R76). -/
def Obligations.ReadsReturnTheStoredBytes : Prop :=
  ∀ (s : State) (off : Half), s.life = .operational →
    exec (.cfgRd8 off) s = .next { s with result := some (.data8 (byteSeen s.cfg off.toNat)) } ∧
    (∃ v : Half, exec (.cfgRd16 off) s = .next { s with result := some (.data16 v) } ∧
      v.toNat = (byteSeen s.cfg off.toNat).toNat + 2 ^ 8 * (byteSeen s.cfg (off.toNat + 1)).toNat) ∧
    ∃ v : Dword, exec (.cfgRd32 off) s = .next { s with result := some (.data32 v) } ∧
      v.toNat = (byteSeen s.cfg off.toNat).toNat + 2 ^ 8 * (byteSeen s.cfg (off.toNat + 1)).toNat +
        2 ^ 16 * (byteSeen s.cfg (off.toNat + 2)).toNat + 2 ^ 24 * (byteSeen s.cfg (off.toNat + 3)).toNat

/-- The three writes complete on every operational instance at every offset, with `Done`; every covered byte is merged
under its own write mask, so that a bit that is not writable keeps its value without report (60_exceptions.md R203);
every other byte of configuration space keeps its value, and `life` and the requests are unchanged (the merge is step 1
of 40_config_access.md R133). -/
def Obligations.WritesMergeUnderTheWriteMask : Prop :=
  ∀ (s : State) (w : Width) (off : Half) (v : Dword), s.life = .operational → s.cfg.length = 256 →
    ∃ t, exec (writeOp w off v) s = .next t ∧ t.life = s.life ∧ t.requests = s.requests ∧ t.result = some .done ∧
      t.cfg.length = 256 ∧ ∀ a < 256, byteSeen t.cfg a =
        if off.toNat ≤ a ∧ a < off.toNat + w.bytes then
          (byteSeen s.cfg a &&& ~~~(layout.wmask a)) ||| (byteAt v (a - off.toNat) &&& layout.wmask a)
        else byteSeen s.cfg a

/-- The side effect of a write on every BAR: a BAR with a covered byte goes to Sizing when the candidate has all
writable bits one and to Based otherwise, from every state; a BAR with no covered byte keeps its state. The candidate
has the written bytes where the write covers it and the stored ones elsewhere (40_config_access.md R133 step 2,
41_bar_logic.md R152, R153, R154, decisions D12 and D13). -/
def Obligations.WritesDriveTheBarStateMachine : Prop :=
  ∀ (s t : State) (w : Width) (off : Half) (v cand : Dword) (i : Fin 6), s.life = .operational →
    exec (writeOp w off v) s = .next t →
    (∀ j < 4, byteAt cand j =
      if off.toNat ≤ (layout.bar i).offset + j ∧ (layout.bar i).offset + j < off.toNat + w.bytes then
        byteAt v ((layout.bar i).offset + j - off.toNat)
      else byteSeen s.cfg ((layout.bar i).offset + j)) →
    t.barState[i] =
      if off.toNat < (layout.bar i).offset + 4 ∧ (layout.bar i).offset < off.toNat + w.bytes then
        if cand &&& layout.wmask32 i = layout.wmask32 i then .sizing else .based
      else s.barState[i]

/-- 40_config_access.md R141 (derived): a read after a write, with no other write between, returns the merge byte by byte
and 0x00 beyond the extent; for the six fully writable fields at their own offset and width it returns what was
written. -/
def Obligations.ReadAfterWriteReturnsTheMerge : Prop :=
  ∀ (s t : State) (w : Width) (off : Half) (v : Dword), s.life = .operational → s.cfg.length = 256 →
    exec (writeOp w off v) s = .next t →
    (∃ u : Dword, exec (readOp w off) t = .next { t with result := some (dataResult w u) } ∧
      ∀ k < w.bytes, byteAt u k =
        if off.toNat + k < 256 then
          (byteSeen s.cfg (off.toNat + k) &&& ~~~(layout.wmask (off.toNat + k))) |||
            (byteAt v k &&& layout.wmask (off.toNat + k))
        else 0) ∧
    ((off, w) ∈ ([(0x04, .word), (0x3C, .byte), (0x74, .word), (0x82, .word), (0x84, .dword), (0x88, .word)] :
        List (Half × Width)) →
      exec (readOp w off) t = .next { t with result := some (dataResult w v) })

/-- A write of any width has the same effect on `cfg` as its byte writes in any order (40_config_access.md R143, first
sentence, derived; 20_memory.md R75). -/
def Obligations.WriteEqualsItsByteWritesInAnyOrder : Prop :=
  ∀ (s : State) (o : Nat) (w : Width) (v : Dword) (ks : List Nat), ks.Perm (List.range w.bytes) →
    (ks.foldl (fun u k => memWrite layout (o + k) [byteAt v k] u) s).cfg = (memWrite layout o (bytesOf w v) s).cfg

/-- 40_config_access.md R140 (derived): whatever sequence of operations runs, a byte with write mask 0 reads as its reset
value on an operational instance, and those bytes include every field of the rule's list and every reserved byte. -/
def Obligations.ReadOnlyBytesKeepTheirResetValue : Prop :=
  (∀ (n : Nat) (s t : State), s.Inv layout → Host.Core.run core n s = .next t → t.life = .operational →
    ∀ o < 256, layout.wmask o = 0 → byteSeen t.cfg o = layout.rst o) ∧
  (∀ f ∈ layout.fields, f.name ∈ ([.VID, .DID, .STS, .REV, .PI, .SCC, .BCC, .CAPPTR, .INTPN, .PM_ID, .PM_NEXT, .PMC,
      .MSI_ID, .MSI_NEXT] : List FieldName) → ∀ o < 256, f.covers o = true → layout.wmask o = 0) ∧
  ∀ o < 256, layout.fieldAt o = none → layout.wmask o = 0

/-- 40_config_access.md R142 (derived): every reserved offset, and every offset beyond the extent, reads 0x00 in every
state that meets the invariant. -/
def Obligations.ReservedOffsetsReadZero : Prop :=
  ∀ (s : State) (off : Half), s.Inv layout → s.life = .operational → ReservedOffset off.toNat →
    exec (.cfgRd8 off) s = .next { s with result := some (.data8 0x00) }

/-- 60_exceptions.md R202: a covered byte beyond the extent reads 0x00, and a write to it is dropped, whatever the
written byte is; the read still returns data and the write `Done`. A write wholly beyond it changes nothing at all. -/
def Obligations.BytesBeyondTheExtentAreAbsorbed : Prop :=
  ∀ (s : State) (w : Width) (off : Half) (v : Dword), s.life = .operational →
    (∃ u : Dword, exec (readOp w off) s = .next { s with result := some (dataResult w u) } ∧
      ∀ k < w.bytes, 256 ≤ off.toNat + k → byteAt u k = 0) ∧
    (∃ t, exec (writeOp w off v) s = .next t ∧ t.result = some .done) ∧
    (∀ v' : Dword, (∀ k < w.bytes, off.toNat + k < 256 → byteAt v k = byteAt v' k) →
      exec (writeOp w off v) s = exec (writeOp w off v') s) ∧
    (256 ≤ off.toNat → exec (writeOp w off v) s = .next { s with result := some .done })

/-- Where a write has side effects (20_memory.md section 3). No write changes `life`, a byte it does not cover, or a bit
outside the write masks. A write off the BAR bytes (0x10 to 0x1F, 0x24 to 0x2B) leaves every BAR state alone, and if it is
also off the Command bytes, every decode answer; a write that clears an enable in the Command register turns every decode
answer of that space to NotMapped. That the enables are bits 0 and 1 is the spec's decision D15 (10_state.md R30,
30_encoding.md R114, 41_bar_logic.md R160; log 9). A write onto a BAR runs its state machine, which leaves Unsized. A
write that stores what is already there moves no BAR but an Unsized one. -/
def Obligations.WritesHaveSideEffectsOnlyAtTheirOffsets : Prop :=
  ∀ (s t : State) (w : Width) (off : Half) (v : Dword), s.Inv layout → s.life = .operational →
    exec (writeOp w off v) s = .next t →
    (t.life = s.life ∧ t.requests = s.requests ∧ t.result = some .done ∧ t.cfg.length = s.cfg.length) ∧
    (∀ a < 256, ¬ (off.toNat ≤ a ∧ a < off.toNat + w.bytes) → byteSeen t.cfg a = byteSeen s.cfg a) ∧
    (∀ a < 256, byteSeen t.cfg a &&& ~~~(layout.wmask a) = byteSeen s.cfg a &&& ~~~(layout.wmask a)) ∧
    ((∀ a, off.toNat ≤ a → a < off.toNat + w.bytes → ¬ (0x10 ≤ a ∧ a ≤ 0x1F) ∧ ¬ (0x24 ≤ a ∧ a ≤ 0x2B)) →
      t.barState = s.barState ∧
      ((∀ a, off.toNat ≤ a → a < off.toNat + w.bytes → a ≠ 0x04 ∧ a ≠ 0x05) →
        ∀ (sp : Space) (addr : Dword) (r : Result),
          exec (decodeOp sp addr) s = .next { s with result := some r } →
          exec (decodeOp sp addr) t = .next { t with result := some r })) ∧
    (off.toNat ≤ 0x04 → 0x04 < off.toNat + w.bytes → ∀ (sp : Space) (addr : Dword),
      (byteAt v (0x04 - off.toNat)).getLsbD (if sp = .io then 0 else 1) = false →
      exec (decodeOp sp addr) t = .next { t with result := some .notMapped }) ∧
    (∀ i : Fin 6, off.toNat < (layout.bar i).offset + 4 → (layout.bar i).offset < off.toNat + w.bytes →
      t.barState[i] ≠ .unsized) ∧
    (t.cfg = s.cfg → ∀ i : Fin 6, s.barState[i] ≠ .unsized → t.barState[i] = s.barState[i])

/-- 70_reset_and_hazards.md R231: CONSTRUCT stores the reset byte at every offset, the same bytes at every construction,
namely those of 10_state.md R66; and of an instance that is operational afterwards, only a write onto the byte ever
changed it otherwise. -/
def Obligations.OnlyConstructionAndWritesStoreBytes : Prop :=
  (∀ s : State, s.life = .absent → ∃ t, exec .construct s = .next t ∧
    t.cfg.length = 256 ∧ ∀ a < 256, byteSeen t.cfg a = layout.rst a ∧ layout.rst a = printedImage.getD a 0) ∧
  ∀ (i : Instr) (s t : State), exec i s = .next t → t.life = .operational →
    ∀ a < 256, byteSeen t.cfg a ≠ byteSeen s.cfg a →
    (i = .construct ∧ s.life = .absent) ∨
      ∃ w off v, i = writeOp w off v ∧ off.toNat ≤ a ∧ a < off.toNat + w.bytes ∧ layout.wmask a ≠ 0

/-- The identification registers VID, DID, REV, PI and SCC read as 10_state.md R28, R29, R32, R33 and R34 give them in
every state that meets the invariant, and after a write of any value anywhere. -/
def Obligations.IdentityRegistersAreConstant : Prop :=
  ∀ s : State, s.Inv layout → s.life = .operational →
    (byteSeen s.cfg 0x00 = 0x86 ∧ byteSeen s.cfg 0x01 = 0x80 ∧ byteSeen s.cfg 0x02 = 0x80 ∧
      byteSeen s.cfg 0x03 = 0x8C) ∧
    exec (.cfgRd16 0x00) s = .next { s with result := some (.data16 0x8086) } ∧
    exec (.cfgRd16 0x02) s = .next { s with result := some (.data16 0x8C80) } ∧
    exec (.cfgRd8 0x08) s = .next { s with result := some (.data8 0x00) } ∧
    exec (.cfgRd8 0x09) s = .next { s with result := some (.data8 0x01) } ∧
    exec (.cfgRd8 0x0A) s = .next { s with result := some (.data8 0x06) } ∧
    ∀ (w : Width) (off : Half) (v : Dword), ∃ t, exec (writeOp w off v) s = .next t ∧
      ∀ a, a < 0x04 ∨ (0x08 ≤ a ∧ a ≤ 0x0A) → byteSeen t.cfg a = byteSeen s.cfg a

/-- The layout is the one the spec prints: `CFG_SIZE`, the field map of 10_state.md R25 with the name, offset, width,
reset value, mask and class of every row, every BAR by its index (00_scope.md R9; 10_state.md R37 to R43), the
capability constants (R9), and for every byte its write mask and its value after construction (R25, R66). It meets the
conditions on a layout (R27: "The layout of rule R25 meets all eight"), and its attributes fit: each class its mask (R23),
the fixed low bits of each BAR its kind (30_encoding.md section 5, R108 and R109); those two checks are beyond R27's
eight, a DESIGN CHOICE (log 13). The numbers that rest on the spec's decisions (D1, D3 to D6, D8 to D10, D24, D25, D26)
are named in log 9. -/
def Obligations.LayoutIsThePrintedFieldMap : Prop :=
  layout.cfgSize = 256 ∧
  layout.fields.map (fun f => (f.name, f.offset, f.width.bytes, f.reset, f.wmask, f.cls)) = printedFieldMap ∧
  layout.bar 0 = { offset := 0x10, kind := .io, prefetchable := false, size := 8, reset := 0x00000001 } ∧
  layout.bar 1 = { offset := 0x14, kind := .io, prefetchable := false, size := 4, reset := 0x00000001 } ∧
  layout.bar 2 = { offset := 0x18, kind := .io, prefetchable := false, size := 8, reset := 0x00000001 } ∧
  layout.bar 3 = { offset := 0x1C, kind := .io, prefetchable := false, size := 4, reset := 0x00000001 } ∧
  layout.bar 4 = { offset := 0x24, kind := .io, prefetchable := false, size := 32, reset := 0x00000001 } ∧
  layout.bar 5 = { offset := 0x28, kind := .mem32, prefetchable := false, size := 1024, reset := 0x00000000 } ∧
  (layout.capPtr = 0x80 ∧ layout.pmBase = 0x70 ∧ layout.pmId = 0x01 ∧ layout.pmNext = 0xA8 ∧
    layout.msiBase = 0x80 ∧ layout.msiId = 0x05 ∧ layout.msiNext = 0x70) ∧
  (layout.capRegionLo = 0x70 ∧ layout.capRegionHi = 0xAF ∧ layout.minCapSize = 4 ∧ layout.maxHops = 16) ∧
  (∀ o < 256, layout.wmask o = printedMask o ∧ layout.rst o = printedImage.getD o 0) ∧
  layout.wellFormed = true ∧ layout.attributesFit = true

/-! ### Invariants -/

/-- 10_state.md R26 (derived): in every state with an operational instance, no byte differs from its reset value in a bit
that cannot be written. Every step keeps this, from every state that has it, and it holds before the first step. -/
def Obligations.StoredBitsAreKept : Prop :=
  (State.reset.life = .operational → StoredBitsHold layout State.reset.cfg) ∧
  ∀ s t : State, (s.life = .operational → StoredBitsHold layout s.cfg) → step s = .next t →
    (t.life = .operational → StoredBitsHold layout t.cfg)

/-- 41_bar_logic.md R159 (derived): state and register value of every BAR correspond, with the stored-value invariant;
every step keeps this. So the state of a BAR is a function of its register and of whether it is still Unsized. -/
def Obligations.BarStateAndRegisterCorrespond : Prop :=
  (∀ s t : State, s.Inv layout → step s = .next t → t.Inv layout) ∧
  ∀ (s s' : State) (i : Fin 6), s.Inv layout → s'.Inv layout → s.life = .operational → s'.life = .operational →
    barValue layout s.cfg i = barValue layout s'.cfg i → (s.barState[i] = .unsized ↔ s'.barState[i] = .unsized) →
    s.barState[i] = s'.barState[i]

/-- The invariant holds before the first step and of a fresh instance. -/
def Obligations.ResetAndConstructMeetTheInvariant : Prop :=
  State.reset.Inv layout ∧
    ∃ t, exec .construct State.reset = .next t ∧ t.life = .operational ∧ t.Inv layout

/-! ### BAR sizing -/

/-- 41_bar_logic.md R151: the size mask of every BAR, and the size a guest recovers from it (the guest's formula is the
spec's from general knowledge). -/
def Obligations.SizeMaskOfEveryBar : Prop :=
  ∀ i : Fin 6,
    layout.sizeMask i = BitVec.ofNat 32 (2 ^ 32 - (layout.bar i).size) ||| (layout.bar i).reset ∧
    layout.sizeMask i =
      (#v[0xFFFFFFF9, 0xFFFFFFFD, 0xFFFFFFF9, 0xFFFFFFFD, 0xFFFFFFE1, 0xFFFFFC00] : Vector Dword 6)[i] ∧
    (~~~(layout.sizeMask i &&& ~~~(if i.val < 5 then 0x3 else 0xF : Dword)) + 1).toNat = (layout.bar i).size

/-- 41_bar_logic.md R166 (derived): the sizing protocol and the base assignment round-trip on every BAR, from every
operational state that meets the invariant. -/
def Obligations.SizingProtocolRoundTrip : Prop :=
  ∀ (s : State) (i : Fin 6), s.Inv layout → s.life = .operational →
    (∃ t, exec (.cfgWr32 (barOffset i) 0xFFFFFFFF) s = .next t ∧
      exec (.cfgRd32 (barOffset i)) t = .next { t with result := some (.data32 (layout.sizeMask i)) }) ∧
    ∀ a : Dword, (layout.bar i).size ∣ a.toNat → a.toNat < 2 ^ 32 - (layout.bar i).size →
      ∃ t, exec (.cfgWr32 (barOffset i) (a ||| (layout.bar i).reset)) s = .next t ∧
        exec (.cfgRd32 (barOffset i)) t = .next { t with result := some (.data32 (a ||| (layout.bar i).reset)) }

/-- 41_bar_logic.md R158: a write of any value to a BAR stores its bits at and above the size boundary and the fixed
bits; the bits below are dropped without report. -/
def Obligations.MisalignedBaseDropsTheLowBits : Prop :=
  ∀ (s : State) (i : Fin 6) (a : Dword), s.Inv layout → s.life = .operational →
    ∃ t, exec (.cfgWr32 (barOffset i) a) s = .next t ∧ t.result = some .done ∧
      exec (.cfgRd32 (barOffset i)) t =
        .next { t with result := some (.data32 ((a &&& layout.wmask32 i) ||| (layout.bar i).reset)) }

/-- 70_reset_and_hazards.md R241 (derived): the top-most aligned base cannot be told from the all-ones write; it leaves
the BAR Sizing, and no address is decoded to it. -/
def Obligations.TopmostBaseIsASizingWrite : Prop :=
  ∀ (s : State) (i : Fin 6), s.life = .operational →
    ∃ t, exec (.cfgWr32 (barOffset i) (BitVec.ofNat 32 (2 ^ 32 - (layout.bar i).size))) s = .next t ∧
      exec (.cfgWr32 (barOffset i) 0xFFFFFFFF) s = .next t ∧ t.barState[i] = .sizing ∧
      ∀ (sp : Space) (addr k : Dword), exec (decodeOp sp addr) t ≠ .next { t with result := some (.mapped i k) }

/-- The state of a BAR changes only by a write that covers one of its bytes, and never back to Unsized while the
instance lives (41_bar_logic.md R154, decision D13). -/
def Obligations.OnlyTouchingWritesMoveABar : Prop :=
  ∀ (ins : Instr) (s t : State) (i : Fin 6), s.life = .operational → t.life = .operational → exec ins s = .next t →
    t.barState[i] ≠ s.barState[i] →
    t.barState[i] ≠ .unsized ∧
      ∃ w off v, ins = writeOp w off v ∧ off.toNat < (layout.bar i).offset + 4 ∧
        (layout.bar i).offset < off.toNat + w.bytes

/-- 41_bar_logic.md R155, over any layout: a BAR of size zero has no writable bit, is Unsized after construction, is
moved by no write, is never decoded, and in a well-formed layout reads as its constant after any write. This hardware
has no such BAR. -/
def Obligations.BarOfSizeZeroTakesNoPart : Prop :=
  (∀ i : Fin 6, (layout.bar i).size ≠ 0) ∧ ∀ (L : Layout) (i : Fin 6), (L.bar i).size = 0 →
    L.wmask32 i = 0 ∧
    (∀ s : State, (s.initialise L).barState[i] = .unsized) ∧
    (∀ (s : State) (o : Nat) (bs : List Byte), (memWrite L o bs s).barState[i] = s.barState[i]) ∧
    (∀ (s : State) (sp : Space) (addr k : Dword), decodeAddress L s sp addr ≠ .mapped i k) ∧
    (L.wellFormed = true →
      barValue L L.resetImage i = (L.bar i).reset ∧
      ∀ (cfg : CfgBytes) (o : Nat) (bs : List Byte), barValue L (storeBytes L cfg o bs) i = barValue L cfg i)

/-! ### Decode -/

/-- Both decode queries complete on every operational instance, change nothing, and answer from the windows:
NotMapped while the enable bit of the space is 0 or no window holds the address; else a BAR whose window holds it, with
the offset into that window. Which of several is not said here (41_bar_logic.md R160 to R163, R165, decision
D15). -/
def Obligations.DecodeAnswersFromTheWindows : Prop :=
  ∀ (s : State) (sp : Space) (addr : Dword), s.life = .operational →
    ∃ r, exec (decodeOp sp addr) s = .next { s with result := some r } ∧
      ((byteSeen s.cfg 0x04).getLsbD (if sp = .io then 0 else 1) = false → r = .notMapped) ∧
      ((∀ i, ¬ InWindow s sp addr i) → r = .notMapped) ∧
      ((byteSeen s.cfg 0x04).getLsbD (if sp = .io then 0 else 1) = true → (∃ i, InWindow s sp addr i) →
        ∃ i k, r = .mapped i k ∧ InWindow s sp addr i ∧ (barBase layout s.cfg i).toNat + k.toNat = addr.toNat ∧
          k.toNat < (layout.bar i).size)

/-- 41_bar_logic.md R162, BAR_DECODE_MEM whole: refused without an operational instance; else NotMapped while Command
bit 1 is 0 or BAR5 is not Based; else exactly the 1024 addresses of BAR5's window are mapped, to BAR5 with the offset
into it, whatever the I/O BARs hold. Nothing but the result changes. -/
def Obligations.MemoryDecodeSeesOnlyTheAhciWindow : Prop :=
  ∀ (s : State) (addr : Dword),
    (s.life ≠ .operational → exec (.barDecodeMem addr) s = .next { s with result := some (.refused .notOperational) }) ∧
    (s.life = .operational → (byteSeen s.cfg 0x04).getLsbD 1 = false →
      exec (.barDecodeMem addr) s = .next { s with result := some .notMapped }) ∧
    (s.life = .operational → s.barState[5] ≠ .based →
      exec (.barDecodeMem addr) s = .next { s with result := some .notMapped }) ∧
    (s.life = .operational → (byteSeen s.cfg 0x04).getLsbD 1 = true → s.barState[5] = .based →
      ∀ base : Dword, base =
        (byteSeen s.cfg 0x2B ++ byteSeen s.cfg 0x2A ++ byteSeen s.cfg 0x29 ++ byteSeen s.cfg 0x28) &&& 0xFFFFFC00 →
        exec (.barDecodeMem addr) s = .next { s with
          result := some (if base.toNat ≤ addr.toNat ∧ addr.toNat < base.toNat + 1024 then .mapped 5 (addr - base)
            else .notMapped) })

/-- Of several windows that hold an address the lowest index answers. This is the spec's own decision D15
(41_bar_logic.md R161, R164, which asks that no claim about the real block rest on it; log 11). -/
def Obligations.OverlapGoesToTheLowestIndex : Prop :=
  ∀ (s : State) (sp : Space) (addr : Dword) (i : Fin 6), s.life = .operational →
    (byteSeen s.cfg 0x04).getLsbD (if sp = .io then 0 else 1) = true → InWindow s sp addr i →
    (∀ j < i, ¬ InWindow s sp addr j) →
    exec (decodeOp sp addr) s = .next { s with result := some (.mapped i (addr - barBase layout s.cfg i)) }

/-- 70_reset_and_hazards.md R232 (its last sentence derived): CONSTRUCT leaves every BAR Unsized and both decode enables
0, and every decode query then answers NotMapped. -/
def Obligations.NothingIsMappedAfterConstruct : Prop :=
  ∀ s t : State, s.life = .absent → exec .construct s = .next t →
    (∀ i : Fin 6, t.barState[i] = .unsized) ∧ (byteSeen t.cfg 0x04).getLsbD 0 = false ∧
      (byteSeen t.cfg 0x04).getLsbD 1 = false ∧
      ∀ (sp : Space) (addr : Dword), exec (decodeOp sp addr) t = .next { t with result := some .notMapped }

/-- 41_bar_logic.md R157 (decisions D14, D15): the base of a Based BAR is its register under the mask, a multiple of the
size and at most 2^32 - 2 * size, so that its window does not wrap (20_memory.md R81); a BAR that is not Based has no
window. -/
def Obligations.WindowsAreAlignedAndDoNotWrap : Prop :=
  ∀ (s : State) (i : Fin 6), s.Inv layout → s.life = .operational →
    (s.barState[i] = .based →
      barBase layout s.cfg i = memRead32 layout s.cfg (layout.bar i).offset &&& layout.wmask32 i ∧
      (layout.bar i).size ∣ (barBase layout s.cfg i).toNat ∧
      (barBase layout s.cfg i).toNat + 2 * (layout.bar i).size ≤ 2 ^ 32) ∧
    (s.barState[i] ≠ .based →
      ∀ (sp : Space) (addr k : Dword), exec (decodeOp sp addr) s ≠ .next { s with result := some (.mapped i k) })

/-- A write of the Command register completes, leaves the BARs alone, and acts on the very next decode query of each
space (70_reset_and_hazards.md R243; the bits are 10_state.md R30 and 41_bar_logic.md R160, decision D15). -/
def Obligations.CommandWriteActsOnTheNextDecode : Prop :=
  ∀ (s : State) (v : Half), s.life = .operational → s.cfg.length = 256 →
    ∃ t, exec (.cfgWr16 0x04 v) s = .next t ∧ t.barState = s.barState ∧
      ∀ (sp : Space) (addr : Dword),
        (v.getLsbD (if sp = .io then 0 else 1) = false →
          exec (decodeOp sp addr) t = .next { t with result := some .notMapped }) ∧
        (v.getLsbD (if sp = .io then 0 else 1) = true → (∃ i, InWindow s sp addr i) →
          ∃ i k, exec (decodeOp sp addr) t = .next { t with result := some (.mapped i k) } ∧ InWindow s sp addr i)

/-! ### Capability chain -/

/-- 42_capability_chain.md R188 (derived): on an operational instance that meets the invariant the walk never raises,
takes three hops, and returns the MSI node then the PM node, with the payloads stored now; the bytes it reads for
control cannot be written. -/
def Obligations.WalkReportsMsiThenPm : Prop :=
  (∀ o ∈ [0x34, 0x80, 0x81, 0x70, 0x71, 0xA8, 0xA9], layout.wmask o = 0) ∧
  ∀ s : State, s.Inv layout → s.life = .operational →
    (∃ vs, visits layout s.cfg = .ok vs ∧ vs.length = 3) ∧
      exec .capWalk s = .next { s with result := some (.chain [msiNode s.cfg, pmNode s.cfg]) }

/-- 42_capability_chain.md R181, the chain as stored: the pointer at 0x34 leads to the MSI structure at 0x80, that to the
Power-Management structure at 0x70, that to the null bytes at 0xA8; the found MSI node has the other's base as its
next pointer. -/
def Obligations.ChainOfThisHardwareAsStored : Prop :=
  ∀ s : State, s.Inv layout → s.life = .operational →
    byteSeen s.cfg 0x34 = 0x80 ∧ (byteSeen s.cfg 0x80 = 0x05 ∧ byteSeen s.cfg 0x81 = 0x70) ∧
      (byteSeen s.cfg 0x70 = 0x01 ∧ byteSeen s.cfg 0x71 = 0xA8) ∧
      (byteSeen s.cfg 0xA8 = 0x00 ∧ byteSeen s.cfg 0xA9 = 0x00) ∧
      ∃ msi pm : Node, exec .capWalk s = .next { s with result := some (.chain [msi, pm]) } ∧
        exec (.capFind 0x05) s = .next { s with result := some (.found msi) } ∧
        msi.base = 0x80 ∧ msi.id = 0x05 ∧ msi.next = pm.base ∧ pm.base = 0x70 ∧ pm.id = 0x01

/-- CAP_FIND completes for every ID: 0x05 gives the MSI node, 0x01 the PM node, every other ID, 0x00 among them,
Absent (42_capability_chain.md R186, decision D21). -/
def Obligations.FindReturnsTheNodeWithTheId : Prop :=
  ∀ s : State, s.Inv layout → s.life = .operational →
    exec (.capFind 0x05) s = .next { s with result := some (.found (msiNode s.cfg)) } ∧
    exec (.capFind 0x01) s = .next { s with result := some (.found (pmNode s.cfg)) } ∧
    ∀ id : Byte, id ≠ 0x05 → id ≠ 0x01 → exec (.capFind id) s = .next { s with result := some .absent }

/-- 42_capability_chain.md R183 (decision D5), for any layout and any bytes: the walk ends within `MAX_HOPS` visits or
raises `HopLimit`, and it raises exactly when the pointer is still non-zero after that many hops; this hardware's
bound is the region's span divided by the smallest structure, 16. -/
def Obligations.WalkIsBounded : Prop :=
  (∀ (L : Layout) (cfg : CfgBytes),
    ((∃ vs, visits L cfg = .ok vs ∧ vs.length ≤ L.maxHops) ∨ visits L cfg = .error .hopLimit) ∧
    (walk L cfg = .error .hopLimit ↔ ∀ k ≤ L.maxHops, pointerAfter L cfg (rdByte L cfg 0x34) k ≠ 0)) ∧
  layout.maxHops = (0xAF - 0x70 + 1) / 4 ∧ layout.maxHops = 16

/-! ### Whole-machine rules -/

/-- The seven operations that only ask (reads, decode queries, chain queries) complete on every operational instance
and change nothing but the result, even where the stored bytes are malformed (20_memory.md R77, 60_exceptions.md R208,
R214). -/
def Obligations.QueriesChangeNothing : Prop :=
  ∀ (s : State) (i : Instr), s.life = .operational → isQuery i = true →
    ∃ r, exec i s = .next { s with result := some r }

/-- No error reaches the guest: on an operational instance every operation a guest issues completes with data or
`Done`, never a fault and never a refusal, and the Status register still reads 0x02B0 (60_exceptions.md R205,
30_encoding.md R107). -/
def Obligations.GuestIsNeverAnsweredAnError : Prop :=
  ∀ (s : State) (i : Instr), s.Inv layout → s.life = .operational → i.issuer = .guest →
    ∃ t r, exec i s = .next t ∧ t.result = some r ∧ r.isGuestAnswer = true ∧ t.life = .operational ∧
      exec (.cfgRd16 0x06) t = .next { t with result := some (.data16 0x02B0) }

/-! ### Any layout -/

/-- The machine is stated over any layout, and this hardware's is that one at its own layout: its operations, its step and
the state before the first step (00_scope.md R9; log 16). -/
def Obligations.ThisHardwareIsTheMachineAtItsLayout : Prop :=
  (∀ (i : Instr) (s : State), exec i s = execWith layout i s) ∧ (∀ s : State, step s = stepWith layout s) ∧
    State.reset = State.resetOf layout

/-- Over every well-formed layout (10_state.md R27), the invariant holds before the first step and every step keeps it:
an operational instance has `CFG_SIZE` bytes (R21), the stored-value invariant (R26, derived), and of every BAR in use
the correspondence of state and register (41_bar_logic.md R159, derived). -/
def Obligations.EveryStepOfAnyLayoutKeepsTheInvariant : Prop :=
  ∀ L : Layout, L.wellFormed = true →
    (State.resetOf L).Inv L ∧ ∀ s t : State, s.Inv L → stepWith L s = .next t → t.Inv L

/-- Over every layout: each request is taken and answered, only CONSTRUCT and TEARDOWN change `life`, and only CONSTRUCT
and the two chain queries ever answer the layout integrity fault (60_exceptions.md R201, R205). -/
def Obligations.AnyLayoutAnswersEveryRequest : Prop :=
  ∀ (L : Layout) (s : State) (w : Request) (rest : List Request), s.requests = w :: rest →
    ∃ t r, stepWith L s = .next t ∧ t.requests = rest ∧ t.result = some r ∧
      (t.life ≠ s.life → decode w = .op .construct ∨ decode w = .op .teardown) ∧
      ∀ f, r = .fault f → decode w = .op .construct ∨ decode w = .op .capWalk ∨ ∃ id, decode w = .op (.capFind id)

/-- Over every layout whose integrity check passes: CONSTRUCT leaves an Operational instance of `CFG_SIZE` bytes, each at
its reset value, with every BAR Unsized and nothing mapped (70_reset_and_hazards.md R230 to R232; 10_state.md R22). -/
def Obligations.ConstructionOfAnyLayout : Prop :=
  ∀ (L : Layout) (s : State), s.life = .absent → chainOk L L.resetImage = .ok () →
    ∃ t, execWith L .construct s = .next t ∧ t.life = .operational ∧ t.requests = s.requests ∧ t.result = some .done ∧
      (∀ i : Fin 6, t.barState[i] = .unsized) ∧ t.cfg.length = L.cfgSize ∧
      (∀ o < L.cfgSize, t.cfg.getD o 0 = L.rst o) ∧
      ∀ (sp : Space) (addr : Dword), execWith L (decodeOp sp addr) t = .next { t with result := some .notMapped }

/-- Over every layout, on an instance of `CFG_SIZE` bytes: a read returns the bytes from its offset up and 0x00 beyond the
extent, and changes nothing; a write merges every covered byte of the extent under its write mask and keeps every other
byte, `life` and the requests (40_config_access.md R131, R133 step 1; 20_memory.md R76). -/
def Obligations.ReadsAndWritesOfAnyLayout : Prop :=
  ∀ (L : Layout) (s : State) (w : Width) (off : Half) (v : Dword), s.life = .operational → s.cfg.length = L.cfgSize →
    (∃ u : Dword, execWith L (readOp w off) s = .next { s with result := some (dataResult w u) } ∧
      ∀ k < w.bytes, byteAt u k =
        if off.toNat + k < L.cfgSize then s.cfg.getD (off.toNat + k) 0 else 0) ∧
    ∃ t, execWith L (writeOp w off v) s = .next t ∧ t.life = s.life ∧ t.requests = s.requests ∧
      t.result = some .done ∧ t.cfg.length = L.cfgSize ∧
      ∀ a < L.cfgSize, t.cfg.getD a 0 =
        if off.toNat ≤ a ∧ a < off.toNat + w.bytes then
          (s.cfg.getD a 0 &&& ~~~(L.wmask a)) ||| (byteAt v (a - off.toNat) &&& L.wmask a)
        else s.cfg.getD a 0

/-- 41_bar_logic.md R166 (derived), over every well-formed layout and every BAR in use that an operation can address: the
sizing write reads back as the size mask and leaves the BAR Sizing, and every aligned base below the top-most reads back
as written and leaves it Based. -/
def Obligations.SizingProtocolOfAnyLayout : Prop :=
  ∀ (L : Layout) (s : State) (i : Fin 6) (off : Half), L.wellFormed = true → s.Inv L → s.life = .operational →
    (L.bar i).size ≠ 0 → off.toNat = (L.bar i).offset →
    (∃ t, execWith L (.cfgWr32 off 0xFFFFFFFF) s = .next t ∧ t.barState[i] = .sizing ∧
      execWith L (.cfgRd32 off) t = .next { t with result := some (.data32 (L.sizeMask i)) }) ∧
    ∀ a : Dword, (L.bar i).size ∣ a.toNat → a.toNat < 2 ^ 32 - (L.bar i).size →
      ∃ t, execWith L (.cfgWr32 off (a ||| (L.bar i).reset)) s = .next t ∧ t.barState[i] = .based ∧
        execWith L (.cfgRd32 off) t = .next { t with result := some (.data32 (a ||| (L.bar i).reset)) }

/-- Over every well-formed layout (41_bar_logic.md R161, its decision D15; R165): a decode query of an
operational instance completes and changes nothing but the result; where the enable of the space is off, the result is
NotMapped; where it is on, the result is the lowest BAR of that space that is in use and Based and whose window
`[base, base + size)` holds the address, with the offset into the window, and NotMapped where there is none. -/
def Obligations.DecodeOfAnyLayout : Prop :=
  ∀ (L : Layout) (s : State) (sp : Space) (addr : Dword), L.wellFormed = true → s.life = .operational →
    let inWindow (i : Fin 6) : Prop :=
      (L.bar i).size ≠ 0 ∧ ((L.bar i).kind = .io ↔ sp = .io) ∧ s.barState[i] = .based ∧
        (barBase L s.cfg i).toNat ≤ addr.toNat ∧ addr.toNat < (barBase L s.cfg i).toNat + (L.bar i).size
    ∃ r, execWith L (decodeOp sp addr) s = .next { s with result := some r } ∧
      ((rdByte L s.cfg 0x04).getLsbD (if sp = .io then 0 else 1) = false → r = .notMapped) ∧
      ((rdByte L s.cfg 0x04).getLsbD (if sp = .io then 0 else 1) = true →
        ((∀ i, ¬ inWindow i) → r = .notMapped) ∧
        ∀ i, inWindow i → (∀ j < i, ¬ inWindow j) → ∃ k, r = .mapped i k ∧
          (barBase L s.cfg i).toNat + k.toNat = addr.toNat)
end

