-- ==== Sys2Proof/Laws/State.lean ====
section
/-! SUPPORT. One lemma per field per update of the state, true by rfl. -/

namespace Sys2Proof.Machine

section
variable (L : Layout) (s : State) (r : Result) (q : RefuseReason) (f : IntegrityReason)

@[simp] theorem respond_life : (s.respond r).life = s.life := rfl
@[simp] theorem respond_cfg : (s.respond r).cfg = s.cfg := rfl
@[simp] theorem respond_barState : (s.respond r).barState = s.barState := rfl
@[simp] theorem respond_requests : (s.respond r).requests = s.requests := rfl
@[simp] theorem respond_result : (s.respond r).result = some r := rfl

@[simp] theorem refuse_life : (s.refuse q).life = s.life := rfl
@[simp] theorem refuse_cfg : (s.refuse q).cfg = s.cfg := rfl
@[simp] theorem refuse_barState : (s.refuse q).barState = s.barState := rfl
@[simp] theorem refuse_requests : (s.refuse q).requests = s.requests := rfl
@[simp] theorem refuse_result : (s.refuse q).result = some (.refused q) := rfl

@[simp] theorem initialise_life : (s.initialise L).life = s.life := rfl
@[simp] theorem initialise_cfg : (s.initialise L).cfg = L.resetImage := rfl
@[simp] theorem initialise_barState : (s.initialise L).barState = allUnsized := rfl
@[simp] theorem initialise_requests : (s.initialise L).requests = s.requests := rfl
@[simp] theorem initialise_result : (s.initialise L).result = s.result := rfl

@[simp] theorem discard_life : (s.discard L).life = s.life := rfl
@[simp] theorem discard_requests : (s.discard L).requests = s.requests := rfl
@[simp] theorem discard_result : (s.discard L).result = s.result := rfl

@[simp] theorem takeIntegrityFault_life : (s.takeIntegrityFault L f).life = .failed := rfl
@[simp] theorem takeIntegrityFault_requests : (s.takeIntegrityFault L f).requests = s.requests := rfl
@[simp] theorem takeIntegrityFault_result : (s.takeIntegrityFault L f).result = some (.fault f) := rfl

end

section
variable (L : Layout) (o : Nat) (bs : List Byte) (s : State)

@[simp] theorem memWrite_life : (memWrite L o bs s).life = s.life := rfl
@[simp] theorem memWrite_cfg : (memWrite L o bs s).cfg = storeBytes L s.cfg o bs := rfl
@[simp] theorem memWrite_barState :
    (memWrite L o bs s).barState = barEffects L o bs s.cfg s.barState := rfl
@[simp] theorem memWrite_requests : (memWrite L o bs s).requests = s.requests := rfl
@[simp] theorem memWrite_result : (memWrite L o bs s).result = s.result := rfl

end

section
variable (s : State) (n w : Nat)

@[simp] theorem withFetchWord_life : (s.withFetchWord n w).life = s.life := rfl
@[simp] theorem withFetchWord_cfg : (s.withFetchWord n w).cfg = s.cfg := rfl
@[simp] theorem withFetchWord_barState : (s.withFetchWord n w).barState = s.barState := rfl
@[simp] theorem withFetchWord_requests : (s.withFetchWord n w).requests = requestOfTable n w :: s.requests := rfl
@[simp] theorem withFetchWord_result : (s.withFetchWord n w).result = s.result := rfl

end

@[simp] theorem resetOf_life (L : Layout) : (State.resetOf L).life = .absent := rfl
@[simp] theorem resetOf_cfg (L : Layout) : (State.resetOf L).cfg = L.resetImage := rfl
@[simp] theorem resetOf_barState (L : Layout) : (State.resetOf L).barState = allUnsized := rfl
@[simp] theorem resetOf_requests (L : Layout) : (State.resetOf L).requests = [] := rfl
@[simp] theorem resetOf_result (L : Layout) : (State.resetOf L).result = none := rfl

@[simp] theorem reset_life : State.reset.life = .absent := rfl
@[simp] theorem reset_cfg : State.reset.cfg = layout.resetImage := rfl
@[simp] theorem reset_barState : State.reset.barState = allUnsized := rfl
@[simp] theorem reset_requests : State.reset.requests = [] := rfl
@[simp] theorem reset_result : State.reset.result = none := rfl

@[simp] theorem allUnsized_get (i : Fin 6) : allUnsized[i] = .unsized := by simp [allUnsized]

end Sys2Proof.Machine
end

