-- ==== Sys2Proof/Laws/Ops.lean ====
section
/-! SUPPORT. What the read primitive, the byte merge, the store loop and the gate do, said once. -/

namespace Sys2Proof.Machine

theorem rdByte_inside (L : Layout) (cfg : CfgBytes) {o : Nat} (h : o < L.cfgSize) : rdByte L cfg o = cfg.getD o 0 :=
  if_pos h

theorem rdByte_beyond (L : Layout) (cfg : CfgBytes) {o : Nat} (h : L.cfgSize ≤ o) : rdByte L cfg o = 0 :=
  if_neg (Nat.not_lt.mpr h)

/-- The read primitive of this hardware. -/
theorem byteSeen_eq_rdByte (cfg : CfgBytes) (o : Nat) : byteSeen cfg o = rdByte layout cfg o := rfl

@[simp] theorem resetImage_length (L : Layout) : L.resetImage.length = L.cfgSize := bytesFrom_length ..

theorem rdByte_resetImage (L : Layout) {o : Nat} (h : o < L.cfgSize) : rdByte L L.resetImage o = L.rst o := by
  have ho : o < L.resetImage.length := by simpa using h
  rw [rdByte_inside L _ h, List.getD_eq_getElem _ _ ho]
  simp [Layout.resetImage, bytesFrom_getElem]

/-! ### Values and bytes -/

theorem byteAt_getLsbD (v : Dword) (k j : Nat) : (byteAt v k).getLsbD j = (decide (j < 8) && v.getLsbD (8 * k + j)) := by
  simp [byteAt]

theorem join4_getLsbD (b0 b1 b2 b3 : Byte) (i : Nat) :
    (join4 b0 b1 b2 b3).getLsbD i =
      if i < 8 then b0.getLsbD i
      else if i < 16 then b1.getLsbD (i - 8)
      else if i < 24 then b2.getLsbD (i - 16)
      else b3.getLsbD (i - 24) := by
  unfold join4
  rw [BitVec.getLsbD_append, BitVec.getLsbD_append, BitVec.getLsbD_append]
  split_ifs <;> first | rfl | omega

theorem byteAt_join4 (b0 b1 b2 b3 : Byte) :
    byteAt (join4 b0 b1 b2 b3) 0 = b0 ∧ byteAt (join4 b0 b1 b2 b3) 1 = b1 ∧
      byteAt (join4 b0 b1 b2 b3) 2 = b2 ∧ byteAt (join4 b0 b1 b2 b3) 3 = b3 := by
  refine ⟨?_, ?_, ?_, ?_⟩ <;>
    (apply BitVec.eq_of_getLsbD_eq; intro i hi
     rw [byteAt_getLsbD, join4_getLsbD]
     interval_cases i <;> simp)

theorem join4_byteAt (v : Dword) : join4 (byteAt v 0) (byteAt v 1) (byteAt v 2) (byteAt v 3) = v := by
  apply BitVec.eq_of_getLsbD_eq; intro i hi
  simp only [join4_getLsbD, byteAt_getLsbD]
  split_ifs
  · simp [*]
  · have h1 : i - 8 < 8 := by omega
    have h2 : 8 * 1 + (i - 8) = i := by omega
    rw [h2]; simp [h1]
  · have h1 : i - 16 < 8 := by omega
    have h2 : 8 * 2 + (i - 16) = i := by omega
    rw [h2]; simp [h1]
  · have h1 : i - 24 < 8 := by omega
    have h2 : 8 * 3 + (i - 24) = i := by omega
    rw [h2]; simp [h1]

/-- A 32-bit value is known by its four bytes. -/
theorem dword_ext {u v : Dword} (h : ∀ k < 4, byteAt u k = byteAt v k) : u = v := by
  rw [← join4_byteAt u, ← join4_byteAt v, h 0 (by decide), h 1 (by decide), h 2 (by decide), h 3 (by decide)]

@[simp] theorem byteAt_and (u v : Dword) (k : Nat) : byteAt (u &&& v) k = byteAt u k &&& byteAt v k := by
  apply BitVec.eq_of_getLsbD_eq; intro i hi; simp [byteAt, hi]

@[simp] theorem byteAt_or (u v : Dword) (k : Nat) : byteAt (u ||| v) k = byteAt u k ||| byteAt v k := by
  apply BitVec.eq_of_getLsbD_eq; intro i hi; simp [byteAt, hi]

theorem byteAt_not (v : Dword) {k : Nat} (hk : k < 4) : byteAt (~~~v) k = ~~~(byteAt v k) := by
  apply BitVec.eq_of_getLsbD_eq; intro i hi
  have : 8 * k + i < 32 := by omega
  simp [byteAt, hi, this]

/-- Byte `k` of a 4-byte read is the byte at `o + k`. -/
theorem byteAt_memRead32 (L : Layout) (cfg : CfgBytes) (o : Nat) {k : Nat} (hk : k < 4) :
    byteAt (memRead32 L cfg o) k = rdByte L cfg (o + k) := by
  obtain ⟨h0, h1, h2, h3⟩ :=
    byteAt_join4 (rdByte L cfg o) (rdByte L cfg (o + 1)) (rdByte L cfg (o + 2)) (rdByte L cfg (o + 3))
  interval_cases k
  exacts [h0, h1, h2, h3]

theorem append_toNat {n m : Nat} (a : BitVec n) (b : BitVec m) : (a ++ b).toNat = a.toNat * 2 ^ m + b.toNat := by
  rw [BitVec.toNat_append, ← Nat.shiftLeft_add_eq_or_of_lt b.isLt, Nat.shiftLeft_eq]

/-- A 2-byte read as a number: the byte at the lower offset counts least (20_memory.md R72). -/
theorem memRead16_toNat (L : Layout) (cfg : CfgBytes) (o : Nat) :
    (memRead16 L cfg o).toNat = (rdByte L cfg o).toNat + 2 ^ 8 * (rdByte L cfg (o + 1)).toNat := by
  rw [memRead16, append_toNat]; omega

/-- A 4-byte read as a number (20_memory.md R72). -/
theorem memRead32_toNat (L : Layout) (cfg : CfgBytes) (o : Nat) :
    (memRead32 L cfg o).toNat = (rdByte L cfg o).toNat + 2 ^ 8 * (rdByte L cfg (o + 1)).toNat +
      2 ^ 16 * (rdByte L cfg (o + 2)).toNat + 2 ^ 24 * (rdByte L cfg (o + 3)).toNat := by
  rw [memRead32, join4, append_toNat, append_toNat, append_toNat]; omega

@[simp] theorem bytesOf_length (w : Width) (v : Dword) : (bytesOf w v).length = w.bytes := by simp [bytesOf]

theorem bytesOf_getD (w : Width) (v : Dword) {k : Nat} (hk : k < w.bytes) : (bytesOf w v).getD k 0 = byteAt v k := by
  simp [bytesOf, List.getD, hk]

theorem width_bytes_le (w : Width) : w.bytes ≤ 4 := by cases w <;> decide

/-! ### The merge -/

theorem mergeByte_getLsbD (m old new : Byte) (j : Nat) :
    (mergeByte m old new).getLsbD j = bif m.getLsbD j then new.getLsbD j else old.getLsbD j := by
  rcases Nat.lt_or_ge j 8 with hj | hj
  · rw [mergeByte, BitVec.getLsbD_or, BitVec.getLsbD_and, BitVec.getLsbD_and, BitVec.getLsbD_not]
    cases m.getLsbD j <;> simp [hj]
  · simp [BitVec.getLsbD_of_ge _ _ hj]

@[simp] theorem mergeByte_zero (old new : Byte) : mergeByte 0 old new = old := by
  apply BitVec.eq_of_getLsbD_eq; intro i hi; rw [mergeByte_getLsbD]; simp

@[simp] theorem mergeByte_full (old new : Byte) : mergeByte 0xFF old new = new := by
  apply BitVec.eq_of_getLsbD_eq; intro i hi
  rw [mergeByte_getLsbD]
  interval_cases i <;> rfl

/-- The bits that cannot be written are kept. -/
theorem mergeByte_fixed (m old new : Byte) : mergeByte m old new &&& ~~~m = old &&& ~~~m := by
  apply BitVec.eq_of_getLsbD_eq; intro i hi
  rw [BitVec.getLsbD_and, BitVec.getLsbD_and, mergeByte_getLsbD, BitVec.getLsbD_not]
  cases m.getLsbD i <;> simp

/-- The bits that can be written are taken from the new byte. -/
theorem mergeByte_written (m old new : Byte) : mergeByte m old new &&& m = new &&& m := by
  apply BitVec.eq_of_getLsbD_eq; intro i hi
  rw [BitVec.getLsbD_and, BitVec.getLsbD_and, mergeByte_getLsbD]
  cases m.getLsbD i <;> simp

/-! ### The store loop -/

@[simp] theorem storeByte_length (L : Layout) (cfg : CfgBytes) (a : Nat) (b : Byte) :
    (storeByte L cfg a b).length = cfg.length := by unfold storeByte; split <;> simp

@[simp] theorem storeBytes_length (L : Layout) (bs : List Byte) :
    ∀ (cfg : CfgBytes) (o : Nat), (storeBytes L cfg o bs).length = cfg.length := by
  induction bs with
  | nil => intros; rfl
  | cons b bs ih => intro cfg o; rw [storeBytes, ih, storeByte_length]

theorem storeByte_getD (L : Layout) (cfg : CfgBytes) (a : Nat) (b : Byte) (x : Nat) :
    (storeByte L cfg a b).getD x 0 =
      if x = a ∧ x < L.cfgSize ∧ x < cfg.length then mergeByte (L.wmask x) (cfg.getD x 0) b else cfg.getD x 0 := by
  unfold storeByte
  by_cases hxa : x = a
  · subst hxa
    by_cases hx : x < L.cfgSize <;> by_cases hl : x < cfg.length <;> simp [hx, hl, List.getD]
  · have hax : a ≠ x := fun h => hxa h.symm
    have hc : ¬ (x = a ∧ x < L.cfgSize ∧ x < cfg.length) := fun h => hxa h.1
    rw [if_neg hc]
    split <;> simp [List.getD, hax]

/-- What the store loop does to every stored byte: covered bytes of the extent are merged, all others are kept. -/
theorem storeBytes_getD (L : Layout) (bs : List Byte) : ∀ (cfg : CfgBytes) (o x : Nat),
    (storeBytes L cfg o bs).getD x 0 =
      if (o ≤ x ∧ x < o + bs.length) ∧ x < L.cfgSize ∧ x < cfg.length then
        mergeByte (L.wmask x) (cfg.getD x 0) (bs.getD (x - o) 0)
      else cfg.getD x 0 := by
  induction bs with
  | nil =>
    intro cfg o x
    have hc : ¬ ((o ≤ x ∧ x < o + ([] : List Byte).length) ∧ x < L.cfgSize ∧ x < cfg.length) := by simp
    rw [storeBytes, if_neg hc]
  | cons b bs ih =>
    intro cfg o x
    rw [storeBytes, ih, storeByte_length, storeByte_getD L cfg o b x, List.length_cons]
    by_cases hin : x < L.cfgSize ∧ x < cfg.length
    · simp only [hin, and_true]
      by_cases hxo : x = o
      · subst hxo
        have h1 : ¬ (x + 1 ≤ x ∧ x < x + 1 + bs.length) := by omega
        have h2 : x ≤ x ∧ x < x + (bs.length + 1) := by omega
        rw [if_neg h1, if_pos h2, if_pos rfl, Nat.sub_self]; rfl
      · rw [if_neg hxo]
        by_cases hc : o ≤ x ∧ x < o + (bs.length + 1)
        · have h1 : o + 1 ≤ x ∧ x < o + 1 + bs.length := by omega
          have h2 : x - o = (x - (o + 1)) + 1 := by omega
          rw [if_pos h1, if_pos hc, h2]; rfl
        · have h1 : ¬ (o + 1 ≤ x ∧ x < o + 1 + bs.length) := by omega
          rw [if_neg h1, if_neg hc]
    · simp only [hin, and_false, if_false]

/-- The same through the read primitive. -/
theorem rdByte_storeBytes (L : Layout) (bs : List Byte) (cfg : CfgBytes) (o x : Nat) :
    rdByte L (storeBytes L cfg o bs) x =
      if (o ≤ x ∧ x < o + bs.length) ∧ x < L.cfgSize ∧ x < cfg.length then
        mergeByte (L.wmask x) (rdByte L cfg x) (bs.getD (x - o) 0)
      else rdByte L cfg x := by
  by_cases hx : x < L.cfgSize
  · rw [rdByte_inside L _ hx, rdByte_inside L _ hx, storeBytes_getD]
  · rw [if_neg fun h => hx h.2.1, rdByte_beyond L _ (Nat.not_lt.mp hx), rdByte_beyond L _ (Nat.not_lt.mp hx)]

/-- The same for an instance, whose configuration space has `CFG_SIZE` bytes. -/
theorem rdByte_storeBytes_inside (L : Layout) (bs : List Byte) {cfg : CfgBytes} (hlen : cfg.length = L.cfgSize)
    (o : Nat) {x : Nat} (hx : x < L.cfgSize) :
    rdByte L (storeBytes L cfg o bs) x =
      if o ≤ x ∧ x < o + bs.length then mergeByte (L.wmask x) (rdByte L cfg x) (bs.getD (x - o) 0)
      else rdByte L cfg x := by
  rw [rdByte_storeBytes]
  exact if_congr (and_iff_left ⟨hx, hlen ▸ hx⟩) rfl rfl

/-- A byte that a write does not cover is kept. -/
theorem rdByte_storeBytes_uncovered (L : Layout) (bs : List Byte) (cfg : CfgBytes) {o x : Nat}
    (h : ¬ (o ≤ x ∧ x < o + bs.length)) : rdByte L (storeBytes L cfg o bs) x = rdByte L cfg x := by
  rw [rdByte_storeBytes, if_neg fun hc => h hc.1]

theorem storeBytes_beyond (L : Layout) (cfg : CfgBytes) {o : Nat} (ho : L.cfgSize ≤ o) (bs : List Byte) :
    storeBytes L cfg o bs = cfg := by
  induction bs generalizing o with
  | nil => rfl
  | cons b bs ih => rw [storeBytes, storeByte, if_neg (by omega), ih (by omega)]

/-- Configuration spaces of one length are equal when every stored byte is. -/
theorem cfg_ext {c d : CfgBytes} (hl : c.length = d.length) (h : ∀ x, c.getD x 0 = d.getD x 0) : c = d := by
  apply List.ext_getElem hl
  intro x h1 h2
  have := h x
  rwa [List.getD_eq_getElem _ _ h1, List.getD_eq_getElem _ _ h2] at this

/-- Configuration spaces of `CFG_SIZE` bytes are equal when every byte reads the same. -/
theorem cfg_ext_rdByte (L : Layout) {c d : CfgBytes} (hc : c.length = L.cfgSize) (hd : d.length = L.cfgSize)
    (h : ∀ x < L.cfgSize, rdByte L c x = rdByte L d x) : c = d := by
  refine cfg_ext (hc.trans hd.symm) fun x => ?_
  by_cases hx : x < L.cfgSize
  · simpa [rdByte, hx] using h x hx
  · rw [List.getD_eq_default _ _ (by omega), List.getD_eq_default _ _ (by omega)]

/-- A write keeps the stored-value invariant. -/
theorem storeBytes_storedBits (L : Layout) (cfg : CfgBytes) (o : Nat) (bs : List Byte) (h : StoredBitsHold L cfg) :
    StoredBitsHold L (storeBytes L cfg o bs) := by
  intro x hx
  rw [rdByte_storeBytes]
  split
  · rw [mergeByte_fixed, h x hx]
  · exact h x hx

theorem resetImage_storedBits (L : Layout) : StoredBitsHold L L.resetImage := by
  intro x hx; rw [rdByte_resetImage L hx]

/-- A byte without a writable bit holds its reset value. -/
theorem StoredBitsHold.fixed {L : Layout} {cfg : CfgBytes} (h : StoredBitsHold L cfg) {o : Nat} (ho : o < L.cfgSize)
    (hm : L.wmask o = 0) : rdByte L cfg o = L.rst o := by
  have := h o ho
  rw [hm] at this
  have hall (b : Byte) : b &&& ~~~(0 : Byte) = b := BitVec.and_allOnes
  rwa [hall, hall] at this

/-- The invariant is about `life`, `cfg` and `barState` only. -/
theorem State.Inv.congr {L : Layout} {s t : State} (h : s.Inv L) (hl : t.life = s.life) (hc : t.cfg = s.cfg)
    (hb : t.barState = s.barState) : t.Inv L := by
  intro ht
  obtain ⟨h0, h1, h2⟩ := h (hl ▸ ht)
  refine ⟨hc ▸ h0, hc ▸ h1, fun i hi => ?_⟩
  obtain ⟨c1, c2, c3, c4⟩ := h2 i hi
  exact ⟨by rw [hc]; exact c1, by rw [hc, hb]; exact c2, by rw [hc, hb]; exact c3, by rw [hc, hb]; exact c4⟩

/-- The invariant says nothing of a block without an operational instance. -/
theorem State.Inv.ofClosed {L : Layout} {s : State} (h : s.life ≠ .operational) : s.Inv L := fun hl => absurd hl h

/-! ### The gate -/

theorem gate_operational {s : State} (h : s.life = .operational) (k : StepOutcome) : gate s k = k := by
  simp [gate, h]

theorem gate_closed {s : State} (h : s.life ≠ .operational) (k : StepOutcome) :
    gate s k = .next (s.refuse .notOperational) := by simp [gate, h]

/-- All a gated operation can do. -/
theorem gate_next {s t u : State} (h : gate s (.next u) = .next t) :
    (s.life = .operational ∧ t = u) ∨ (s.life ≠ .operational ∧ t = s.refuse .notOperational) := by
  by_cases hl : s.life = .operational
  · rw [gate_operational hl] at h; cases h; exact .inl ⟨hl, rfl⟩
  · rw [gate_closed hl] at h; cases h; exact .inr ⟨hl, rfl⟩

end Sys2Proof.Machine
end

