-- ==== Sys2Proof/Laws/Layout.lean ====
section
/-! SUPPORT. What well-formedness of a layout gives (10_state.md R27), and the facts of this hardware's layout. -/

namespace Sys2Proof

open Machine

/-- In a table without overlaps, a field that covers a byte is the field found there. -/
theorem find_covering_field {fs : List Field} (hd : fs.Pairwise fun f g => f.disjoint g = true) {f : Field}
    (hf : f ∈ fs) {o : Nat} (ho : f.covers o = true) : fs.find? (·.covers o) = some f := by
  induction fs with
  | nil => simp at hf
  | cons g gs ih =>
    rw [List.pairwise_cons] at hd
    by_cases hg : g.covers o = true
    · rw [List.find?_cons_of_pos (by simpa using hg)]
      rcases List.mem_cons.mp hf with rfl | hmem
      · rfl
      · have hdis := hd.1 f hmem
        simp only [Field.disjoint, Field.covers, Bool.or_eq_true, Bool.and_eq_true, decide_eq_true_eq] at *
        omega
    · rw [List.find?_cons_of_neg (by simpa using hg)]
      rcases List.mem_cons.mp hf with rfl | hmem
      · exact absurd ho hg
      · exact ih hd.2 hmem

theorem Layout.wellFormed_parts {L : Layout} (h : L.wellFormed = true) :
    L.fieldsInside = true ∧ L.fieldsDisjoint = true ∧ L.barSizesPowers = true ∧ L.barConstantsSmall = true ∧
      L.noMem64 = true ∧ L.barFieldsMatch = true ∧ L.capabilityHeadersFixed = true ∧ L.hopBoundMatches = true := by
  simpa [Layout.wellFormed, and_assoc] using h

/-- In a well-formed layout the four bytes of a BAR lie inside the extent, their write masks are the bytes of
`wmask32(i)` (41_bar_logic.md R150), and their reset bytes those of `BAR_RESET[i]`. -/
theorem Layout.bar_bytes {L : Layout} (h : L.wellFormed = true) (i : Fin 6) :
    (L.bar i).offset + 4 ≤ L.cfgSize ∧ (∀ j < 4, L.wmask ((L.bar i).offset + j) = byteAt (L.wmask32 i) j) ∧
      ∀ j < 4, L.rst ((L.bar i).offset + j) = byteAt (L.bar i).reset j := by
  obtain ⟨hin, hdis, -, -, -, hbar, -⟩ := Layout.wellFormed_parts h
  have hmem : L.bar i ∈ L.bars.toList := by simp [Layout.bar]
  rw [Layout.barFieldsMatch, List.all_eq_true] at hbar
  have hany := hbar _ hmem
  rw [List.any_eq_true] at hany
  obtain ⟨f, hf, hfp⟩ := hany
  simp only [Bool.and_eq_true, decide_eq_true_eq] at hfp
  obtain ⟨⟨⟨hoff, hw⟩, hmask⟩, hrst⟩ := hfp
  have hpair : L.fields.Pairwise fun f g => f.disjoint g = true := by simpa [Layout.fieldsDisjoint] using hdis
  have hb : f.width.bytes = 4 := by rw [hw]; rfl
  have hfind : ∀ j < 4, L.fieldAt ((L.bar i).offset + j) = some f := by
    intro j hj
    refine find_covering_field hpair hf ?_
    simp only [Field.covers, Bool.and_eq_true, decide_eq_true_eq]
    omega
  refine ⟨?_, ?_, ?_⟩
  · rw [Layout.fieldsInside, List.all_eq_true] at hin
    have := hin _ hf
    simp only [decide_eq_true_eq] at this
    omega
  · intro j hj
    have hsub : (L.bar i).offset + j - f.offset = j := by omega
    simp only [Layout.wmask, hfind j hj, hsub, hmask, Layout.wmask32]
  · intro j hj
    have hsub : (L.bar i).offset + j - f.offset = j := by omega
    simp only [Layout.rst, hfind j hj, hsub, hrst]

namespace Machine

/-- This hardware's layout meets every condition (10_state.md R27, last sentences). -/
theorem layout_wellFormed : layout.wellFormed = true := by decide

theorem layout_bar_size_ne_zero (i : Fin 6) : (layout.bar i).size ≠ 0 := by revert i; decide

/-- Control bytes of the chain cannot be written (42_capability_chain.md R188). -/
theorem layout_chain_bytes_fixed :
    layout.wmask 0x34 = 0 ∧ layout.wmask 0x80 = 0 ∧ layout.wmask 0x81 = 0 ∧ layout.wmask 0x70 = 0 ∧
      layout.wmask 0x71 = 0 ∧ layout.wmask 0xA8 = 0 ∧ layout.wmask 0xA9 = 0 := by decide

/-- Control bytes of the chain as stored (42_capability_chain.md R181). -/
theorem layout_chain_bytes_reset :
    layout.rst 0x34 = 0x80 ∧ layout.rst 0x80 = 0x05 ∧ layout.rst 0x81 = 0x70 ∧ layout.rst 0x70 = 0x01 ∧
      layout.rst 0x71 = 0xA8 ∧ layout.rst 0xA8 = 0x00 ∧ layout.rst 0xA9 = 0x00 := by decide

end Machine

end Sys2Proof
end

