-- ==== Sys2Proof/Laws/Bar.lean ====
section
/-! SUPPORT. What a write does to the BARs, and what the decode function answers, said once. -/

namespace Sys2Proof.Machine

/-! ### The state machine -/

theorem barIndices_mem (i : Fin 6) : i ∈ barIndices := by revert i; decide

theorem foldl_set_get (f : Fin 6 → BarState) (p : Fin 6 → Bool) (i : Fin 6) :
    ∀ (l : List (Fin 6)) (bars : Vector BarState 6),
      (l.foldl (fun st j => if p j then st.set j (f j) else st) bars)[i] =
        if i ∈ l ∧ p i = true then f i else bars[i] := by
  intro l
  induction l with
  | nil => intro bars; simp
  | cons j l ih =>
    intro bars
    rw [List.foldl_cons, ih]
    by_cases hij : i = j
    · subst hij; cases hp : p i <;> simp
    · have hne : (j : Nat) ≠ (i : Nat) := fun h => hij (Fin.ext h.symm)
      cases hp : p j <;> simp [hij, hne]

/-- The state of every BAR after a write (40_config_access.md R133 step 2, 41_bar_logic.md R153). -/
theorem barEffects_get (L : Layout) (o : Nat) (bs : List Byte) (old : CfgBytes) (bars : Vector BarState 6)
    (i : Fin 6) :
    (barEffects L o bs old bars)[i] =
      if touchesBar L i o bs.length then
        (if allOnes (L.wmask32 i) (candidate L i o bs old) then .sizing else .based)
      else bars[i] := by
  have := foldl_set_get
    (fun j => if allOnes (L.wmask32 j) (candidate L j o bs old) then .sizing else .based)
    (fun j => touchesBar L j o bs.length) i barIndices bars
  rw [barEffects]
  simp only [onBarWrite]
  rw [this]
  simp [barIndices_mem]

theorem touchesBar_iff (L : Layout) (i : Fin 6) (o n : Nat) :
    touchesBar L i o n = true ↔ (L.bar i).size ≠ 0 ∧ o < (L.bar i).offset + 4 ∧ (L.bar i).offset < o + n := by
  simp [touchesBar, and_assoc]

/-! ### The register after a write -/

theorem byteAt_candidate (L : Layout) (i : Fin 6) (o : Nat) (bs : List Byte) (old : CfgBytes) {j : Nat}
    (hj : j < 4) :
    byteAt (candidate L i o bs old) j = candidateByte L old o bs ((L.bar i).offset + j) := by
  obtain ⟨h0, h1, h2, h3⟩ := byteAt_join4 (candidateByte L old o bs (L.bar i).offset)
    (candidateByte L old o bs ((L.bar i).offset + 1)) (candidateByte L old o bs ((L.bar i).offset + 2))
    (candidateByte L old o bs ((L.bar i).offset + 3))
  interval_cases j
  exacts [h0, h1, h2, h3]

theorem byteAt_barValue (L : Layout) (cfg : CfgBytes) (i : Fin 6) {j : Nat} (hj : j < 4) :
    byteAt (barValue L cfg i) j = rdByte L cfg ((L.bar i).offset + j) := byteAt_memRead32 L cfg _ hj

/-- The register value after any write: the writable bits are the candidate's, the fixed bits stay
(41_bar_logic.md R153, R158). -/
theorem barValue_storeBytes {L : Layout} (hL : L.wellFormed = true) {cfg : CfgBytes} (hlen : cfg.length = L.cfgSize)
    (o : Nat) (bs : List Byte) (i : Fin 6) :
    barValue L (storeBytes L cfg o bs) i =
      (barValue L cfg i &&& ~~~(L.wmask32 i)) ||| (candidate L i o bs cfg &&& L.wmask32 i) := by
  obtain ⟨hoff, hmask, -⟩ := Layout.bar_bytes hL i
  apply dword_ext
  intro j hj
  have ha : (L.bar i).offset + j < L.cfgSize := by omega
  rw [byteAt_barValue L _ i hj, rdByte_storeBytes_inside L bs hlen o ha, byteAt_or, byteAt_and, byteAt_and,
    byteAt_not _ hj, ← hmask j hj, byteAt_barValue L cfg i hj, byteAt_candidate L i o bs cfg hj, candidateByte]
  split
  · rfl
  · apply BitVec.eq_of_getLsbD_eq; intro b hb
    rw [BitVec.getLsbD_or, BitVec.getLsbD_and, BitVec.getLsbD_and, BitVec.getLsbD_not]
    cases (L.wmask ((L.bar i).offset + j)).getLsbD b <;> simp [hb]

/-- A write that touches no byte of a BAR leaves its register alone. -/
theorem barValue_untouched (L : Layout) (cfg : CfgBytes) (o : Nat) (bs : List Byte) (i : Fin 6)
    (h : ¬ (o < (L.bar i).offset + 4 ∧ (L.bar i).offset < o + bs.length)) :
    barValue L (storeBytes L cfg o bs) i = barValue L cfg i := by
  apply dword_ext
  intro j hj
  rw [byteAt_barValue L _ i hj, byteAt_barValue L _ i hj, rdByte_storeBytes_uncovered L bs cfg (by omega)]

theorem allOnes_iff (m v : Dword) : allOnes m v = true ↔ v &&& m = m := by simp [allOnes]

theorem or_and_right (u v m : Dword) : (u ||| v) &&& m = (u &&& m) ||| (v &&& m) := by
  apply BitVec.eq_of_getLsbD_eq; intro b hb
  rw [BitVec.getLsbD_and, BitVec.getLsbD_or, BitVec.getLsbD_or, BitVec.getLsbD_and, BitVec.getLsbD_and]
  exact Bool.and_or_distrib_right ..

theorem and_not_and (v m : Dword) : v &&& ~~~m &&& m = 0 := by
  apply BitVec.eq_of_getLsbD_eq; intro b hb
  rw [BitVec.getLsbD_and, BitVec.getLsbD_and, BitVec.getLsbD_not]
  cases m.getLsbD b <;> simp

theorem and_and_not (v m : Dword) : v &&& m &&& ~~~m = 0 := by
  apply BitVec.eq_of_getLsbD_eq; intro b hb
  rw [BitVec.getLsbD_and, BitVec.getLsbD_and, BitVec.getLsbD_not]
  cases m.getLsbD b <;> simp

/-- A candidate written over fixed bits `f` that lie outside the mask gives the size mask exactly when it passes
the all-ones test. -/
theorem merged_eq_sizeMask_iff {m f v : Dword} (hf : f &&& m = 0) : f ||| (v &&& m) = m ||| f ↔ v &&& m = m := by
  have hz (x : Dword) : 0 ||| x = x := BitVec.zero_or
  have hz' (x : Dword) : x ||| 0 = x := BitVec.or_zero
  constructor
  · intro h
    have h2 := congrArg (· &&& m) h
    simp only [or_and_right, hf, hz, hz', BitVec.and_self, BitVec.and_assoc] at h2
    exact h2
  · intro h; rw [h, BitVec.or_comm]

theorem split_by_mask (v m : Dword) : (v &&& ~~~m) ||| (v &&& m) = v := by
  apply BitVec.eq_of_getLsbD_eq; intro b hb
  rw [BitVec.getLsbD_or, BitVec.getLsbD_and, BitVec.getLsbD_and, BitVec.getLsbD_not]
  cases m.getLsbD b <;> simp [hb]

/-- Any write keeps the correspondence of state and register (41_bar_logic.md R159). -/
theorem memWrite_corresponds {L : Layout} (hL : L.wellFormed = true) {s : State} (hlen : s.cfg.length = L.cfgSize)
    (o : Nat) (bs : List Byte) (i : Fin 6) (hsz : (L.bar i).size ≠ 0) (h : BarCorresponds L s i) :
    BarCorresponds L (memWrite L o bs s) i := by
  by_cases ht : o < (L.bar i).offset + 4 ∧ (L.bar i).offset < o + bs.length
  · have hv := barValue_storeBytes hL hlen o bs i
    rw [h.fixedBits] at hv
    have hf : (L.bar i).reset &&& L.wmask32 i = 0 := by rw [← h.fixedBits]; exact and_not_and _ _
    have hst := barEffects_get L o bs s.cfg s.barState i
    rw [if_pos ((touchesBar_iff L i o bs.length).mpr ⟨hsz, ht⟩)] at hst
    have hsm := merged_eq_sizeMask_iff (v := candidate L i o bs s.cfg) hf
    rw [← allOnes_iff] at hsm
    refine ⟨?_, ?_, ?_, ?_⟩
    · rw [memWrite_cfg, hv, or_and_right, and_and_not, show ∀ x : Dword, x ||| 0 = x from fun _ => BitVec.or_zero,
        ← h.fixedBits, BitVec.and_assoc, BitVec.and_self]
    · intro hs
      rw [memWrite_barState, hst] at hs
      rw [memWrite_cfg, hv, Layout.sizeMask]
      split at hs
      · exact hsm.mpr ‹_›
      · cases hs
    · intro hs
      rw [memWrite_barState, hst] at hs
      rw [memWrite_cfg, hv, Layout.sizeMask]
      split at hs
      · cases hs
      · exact fun he => ‹¬_› (hsm.mp he)
    · intro hs
      rw [memWrite_barState, hst] at hs
      split at hs <;> cases hs
  · have hv := barValue_untouched L s.cfg o bs i ht
    have hst := barEffects_get L o bs s.cfg s.barState i
    rw [if_neg (by rw [touchesBar_iff]; exact fun hh => ht hh.2)] at hst
    have hcfg : barValue L (memWrite L o bs s).cfg i = barValue L s.cfg i := hv
    have hbar : (memWrite L o bs s).barState[i] = s.barState[i] := hst
    exact ⟨by rw [hcfg, h.fixedBits], by rw [hcfg, hbar]; exact h.sizing, by rw [hcfg, hbar]; exact h.based,
      by rw [hcfg, hbar]; exact h.unsized⟩

/-- Any write keeps the invariant of an instance. -/
theorem memWrite_inv {L : Layout} (hL : L.wellFormed = true) {s : State} (h : s.Inv L) (o : Nat) (bs : List Byte) :
    (memWrite L o bs s).Inv L := by
  intro hl
  obtain ⟨h0, h1, h2⟩ := h hl
  exact ⟨(storeBytes_length ..).trans h0, storeBytes_storedBits L s.cfg o bs h1,
    fun i hi => memWrite_corresponds hL h0 o bs i hi (h2 i hi)⟩

/-- After construction every register holds its reset constant. -/
theorem barValue_resetImage {L : Layout} (hL : L.wellFormed = true) (i : Fin 6) :
    barValue L L.resetImage i = (L.bar i).reset := by
  obtain ⟨hoff, -, hrst⟩ := Layout.bar_bytes hL i
  apply dword_ext
  intro j hj
  rw [byteAt_barValue L _ i hj, rdByte_resetImage L (by omega), hrst j hj]

/-! ### Writes of a whole register -/

/-- The candidate of a 4-byte write at a BAR's own offset is the written value (41_bar_logic.md R152). -/
theorem candidate_whole (L : Layout) (i : Fin 6) (v : Dword) (cfg : CfgBytes) :
    candidate L i (L.bar i).offset (bytesOf .dword v) cfg = v := by
  apply dword_ext
  intro j hj
  have hw : Width.dword.bytes = 4 := rfl
  rw [byteAt_candidate _ _ _ _ _ hj, candidateByte, bytesOf_length, if_pos (by omega), Nat.add_sub_cancel_left,
    bytesOf_getD _ _ (by omega)]

/-- The register after such a write (41_bar_logic.md R158). -/
theorem barValue_whole {L : Layout} (hL : L.wellFormed = true) {cfg : CfgBytes} (hlen : cfg.length = L.cfgSize)
    (i : Fin 6) (v : Dword) :
    barValue L (storeBytes L cfg (L.bar i).offset (bytesOf .dword v)) i =
      (barValue L cfg i &&& ~~~(L.wmask32 i)) ||| (v &&& L.wmask32 i) := by
  rw [barValue_storeBytes hL hlen, candidate_whole]

/-- The state of a BAR in use after such a write (41_bar_logic.md R153). -/
theorem barState_whole (L : Layout) (s : State) (i : Fin 6) (v : Dword) (hz : (L.bar i).size ≠ 0) :
    (memWrite L (L.bar i).offset (bytesOf .dword v) s).barState[i] =
      if v &&& L.wmask32 i = L.wmask32 i then .sizing else .based := by
  have hw : Width.dword.bytes = 4 := rfl
  rw [memWrite_barState, barEffects_get,
    if_pos ((touchesBar_iff _ _ _ _).mpr ⟨hz, by rw [bytesOf_length]; omega⟩), candidate_whole]
  simp [allOnes]

/-! ### Masks as numbers -/

/-- The mask of a BAR of size `2^k` has the bits from `k` up (41_bar_logic.md R150). -/
theorem sizeBits_getLsbD {k j : Nat} (hk : k ≤ 31) (hj : j < 32) :
    (BitVec.ofNat 32 (2 ^ 32 - 2 ^ k)).getLsbD j = decide (k ≤ j) := by
  have h : ∀ k j : Fin 32, (BitVec.ofNat 32 (2 ^ 32 - 2 ^ k.val)).getLsbD j = decide (k.val ≤ j.val) := by
    decide +kernel
  exact h ⟨k, by omega⟩ ⟨j, hj⟩

/-- Under that mask a value is rounded down to a multiple of the size. -/
theorem and_sizeBits_toNat (a : Dword) {k : Nat} (hk : k ≤ 31) :
    (a &&& BitVec.ofNat 32 (2 ^ 32 - 2 ^ k)).toNat = a.toNat / 2 ^ k * 2 ^ k := by
  have h : a &&& BitVec.ofNat 32 (2 ^ 32 - 2 ^ k) = (a >>> k) <<< k := by
    apply BitVec.eq_of_getLsbD_eq; intro j hj
    rw [BitVec.getLsbD_and, sizeBits_getLsbD hk hj, BitVec.getLsbD_shiftLeft, BitVec.getLsbD_ushiftRight]
    by_cases h : k ≤ j
    · have : k + (j - k) = j := by omega
      rw [this]; simp [h, hj]
    · simp [h]
  rw [h, BitVec.toNat_shiftLeft, BitVec.toNat_ushiftRight, Nat.shiftRight_eq_div_pow, Nat.shiftLeft_eq]
  apply Nat.mod_eq_of_lt
  have := Nat.div_mul_le_self a.toNat (2 ^ k)
  omega

/-- A BAR in use of a well-formed layout: its size is a power of two, its mask the bits from there up, its constant
below them (10_state.md R27 (3), (4); 41_bar_logic.md R150). -/
theorem Layout.bar_power {L : Layout} (hL : L.wellFormed = true) {i : Fin 6} (hz : (L.bar i).size ≠ 0) :
    ∃ k ≤ 31, 2 ≤ k ∧ (L.bar i).size = 2 ^ k ∧ L.wmask32 i = BitVec.ofNat 32 (2 ^ 32 - 2 ^ k) ∧
      (L.bar i).reset.toNat < 2 ^ k := by
  obtain ⟨-, -, hpow, hsmall, -⟩ := Layout.wellFormed_parts hL
  have hmem : L.bar i ∈ L.bars.toList := by simp [Layout.bar]
  rw [Layout.barSizesPowers, List.all_eq_true] at hpow
  rw [Layout.barConstantsSmall, List.all_eq_true] at hsmall
  have hp := hpow _ hmem
  have hs := hsmall _ hmem
  simp only [hz, decide_false, Bool.false_or, List.contains_eq_mem, List.mem_map, List.mem_range,
    decide_eq_true_eq] at hp
  simp only [hz, decide_false, Bool.false_or, Bool.and_eq_true, decide_eq_true_eq] at hs
  obtain ⟨k, hk, hsize⟩ := hp
  have h4 : 4 ≤ (L.bar i).kind.minSize := by cases (L.bar i).kind <;> decide
  refine ⟨k, by omega, ?_, hsize.symm, by rw [Layout.wmask32, barMask, if_neg hz, hsize], hsize ▸ hs.1⟩
  by_contra hlt
  have : (2 : Nat) ^ k ≤ 2 ^ 1 := Nat.pow_le_pow_right (by decide) (by omega)
  omega

/-- The constant of a BAR in use lies outside its mask. -/
theorem Layout.reset_and_mask {L : Layout} (hL : L.wellFormed = true) {i : Fin 6} (hz : (L.bar i).size ≠ 0) :
    (L.bar i).reset &&& L.wmask32 i = 0 := by
  obtain ⟨k, hk, -, -, hm, hr⟩ := Layout.bar_power hL hz
  apply BitVec.eq_of_toNat_eq
  rw [hm, and_sizeBits_toNat _ hk, Nat.div_eq_of_lt hr, Nat.zero_mul]; rfl

/-- A fresh instance meets the invariant. -/
theorem initialise_inv {L : Layout} (hL : L.wellFormed = true) {t : State} (hc : t.cfg = L.resetImage)
    (hb : t.barState = allUnsized) : t.Inv L := by
  intro _
  refine ⟨hc ▸ resetImage_length L, hc ▸ resetImage_storedBits L, fun i hz => ?_⟩
  have hv : barValue L t.cfg i = (L.bar i).reset := hc ▸ barValue_resetImage hL i
  have hst : t.barState[i] = .unsized := by rw [hb, allUnsized_get]
  refine ⟨?_, fun h => ?_, fun h => ?_, fun _ => hv⟩
  · have h := split_by_mask (L.bar i).reset (L.wmask32 i)
    rw [Layout.reset_and_mask hL hz] at h
    rw [hv]; simpa using h
  · rw [hst] at h; cases h
  · rw [hst] at h; cases h

/-! ### Decode -/

/-- Whether BAR `i` has a window in a space and the address lies in it (41_bar_logic.md R157, R161). -/
theorem barHits_iff (L : Layout) (s : State) (sp : Space) (addr : Dword) (i : Fin 6) :
    barHits L s sp addr i = true ↔
      (L.bar i).size ≠ 0 ∧ spaceOf (L.bar i).kind = some sp ∧ s.barState[i] = .based ∧
        (barBase L s.cfg i).toNat ≤ addr.toNat ∧ addr.toNat < (barBase L s.cfg i).toNat + (L.bar i).size := by
  simp [barHits, and_assoc]

/-- The same for this hardware, in the words of its window table (41_bar_logic.md R157). -/
theorem barHits_layout_iff (s : State) (sp : Space) (addr : Dword) (i : Fin 6) :
    barHits layout s sp addr i = true ↔ InWindow s sp addr i := by
  have hk : ∀ j : Fin 6, (spaceOf (layout.bar j).kind = some .io ↔ j.val < 5) ∧
      (spaceOf (layout.bar j).kind = some .mem ↔ ¬ j.val < 5) := by decide
  rw [barHits_iff, InWindow]
  cases sp <;> simp [hk i, layout_bar_size_ne_zero i]

/-- What the decode function answers (41_bar_logic.md R161): nothing while the enable is off; else a BAR that the
address hits, with the offset into its window, when there is one. -/
theorem decodeAddress_cases (L : Layout) (s : State) (sp : Space) (addr : Dword) :
    (decodeAddress L s sp addr = .notMapped ∧
        (decodeEnable L s.cfg sp = false ∨ ∀ i, barHits L s sp addr i = false)) ∨
      ∃ i, decodeAddress L s sp addr = .mapped i (addr - barBase L s.cfg i) ∧ decodeEnable L s.cfg sp = true ∧
        barHits L s sp addr i = true ∧ ∀ j < i, barHits L s sp addr j = false := by
  unfold decodeAddress
  cases hen : decodeEnable L s.cfg sp with
  | false => left; simp
  | true =>
    cases hfind : barIndices.find? (barHits L s sp addr) with
    | none =>
      left
      rw [List.find?_eq_none] at hfind
      exact ⟨by simp, .inr fun i => by simpa using hfind i (barIndices_mem i)⟩
    | some i =>
      right
      refine ⟨i, by simp, rfl, List.find?_some hfind, ?_⟩
      intro j hj
      have hsorted : barIndices = List.finRange 6 := by decide
      rw [List.find?_eq_some_iff_append] at hfind
      obtain ⟨-, as, bs, hab, hno⟩ := hfind
      have hmem : j ∈ as ++ i :: bs := by rw [← hab]; exact barIndices_mem j
      have hpw : (as ++ i :: bs).Pairwise (· < ·) := by rw [← hab]; decide
      rw [List.pairwise_append, List.pairwise_cons] at hpw
      rcases List.mem_append.mp hmem with hm | hm
      · simpa using hno j hm
      · rcases List.mem_cons.mp hm with rfl | hm
        · exact absurd hj (lt_irrefl _)
        · exact absurd (hpw.2.1.1 j hm) (not_lt.mpr (le_of_lt hj))

end Sys2Proof.Machine
end

