-- ==== Sys2Proof/Laws/Decode.lean ====
section
/-! SUPPORT. The fields of a packed request, and the table of operation codes. -/

namespace Sys2Proof

theorem opField_pack (op : Byte) (off : Half) (dat : Dword) : opField (packRequest op off dat) = op := by
  apply BitVec.eq_of_getLsbD_eq; intro i hi
  simp only [opField, packRequest, BitVec.getLsbD_extractLsb', BitVec.getLsbD_append]
  have h1 : ¬ (56 + i < 32) := by omega
  have h2 : ¬ (56 + i - 32 < 16) := by omega
  have h3 : ¬ (56 + i - 32 - 16 < 8) := by omega
  have h4 : 56 + i - 32 - 16 - 8 = i := by omega
  rw [if_neg h1, if_neg h2, if_neg h3, h4]
  simp [hi]

theorem offField_pack (op : Byte) (off : Half) (dat : Dword) : offField (packRequest op off dat) = off := by
  apply BitVec.eq_of_getLsbD_eq; intro i hi
  simp only [offField, packRequest, BitVec.getLsbD_extractLsb', BitVec.getLsbD_append]
  have h1 : ¬ (32 + i < 32) := by omega
  have h2 : 32 + i - 32 < 16 := by omega
  have h3 : 32 + i - 32 = i := by omega
  rw [if_neg h1, if_pos h2, h3]
  simp [hi]

theorem datField_pack (op : Byte) (off : Half) (dat : Dword) : datField (packRequest op off dat) = dat := by
  apply BitVec.eq_of_getLsbD_eq; intro i hi
  simp only [datField, packRequest, BitVec.getLsbD_extractLsb', BitVec.getLsbD_append]
  have h1 : 0 + i < 32 := by omega
  rw [if_pos h1]
  simp [hi]

/-- No two rows of the table have the same operation code. -/
theorem Opcode.codes_distinct : (Opcode.all.map Opcode.code).Nodup := by decide

theorem Opcode.ofCode_code (c : Opcode) : Opcode.ofCode c.code = some c := by cases c <;> rfl

/-- A code that selects an operation is that operation's code. -/
theorem Opcode.code_of_ofCode {b : Byte} {c : Opcode} (h : Opcode.ofCode b = some c) : c.code = b := by
  have := List.find?_some h
  simpa using this

/-- Decoding a packed request: the code selects the operation, whatever the fields hold. -/
theorem decode_pack (c : Opcode) (off : Half) (dat : Dword) :
    decode (packRequest c.code off dat) = .op (c.operation off dat) := by
  rw [decode, opField_pack, offField_pack, datField_pack, Opcode.ofCode_code]

/-- Decoding what the encoder writes, up to the operand assembly. -/
theorem decode_encode_operation (i : Instr) : decode (encode i) = .op (i.opcode.operation i.off i.dat) :=
  decode_pack i.opcode i.off i.dat

/-- What an answer of the decoder says of the word. -/
theorem decode_op_iff {w : Request} {i : Instr} :
    decode w = .op i ↔ ∃ c, Opcode.ofCode (opField w) = some c ∧ i = c.operation (offField w) (datField w) := by
  unfold decode
  cases h : Opcode.ofCode (opField w) with
  | none => simp
  | some c => simp [eq_comm]

theorem decode_illegal_iff {w : Request} : decode w = .illegal ↔ Opcode.ofCode (opField w) = none := by
  unfold decode
  cases h : Opcode.ofCode (opField w) <;> simp

/-- A word is its fields with the ignored field `rsv`. -/
theorem request_fields (w : Request) :
    w = opField w ++ (w.extractLsb' 48 8 : Byte) ++ offField w ++ datField w := by
  apply BitVec.eq_of_getLsbD_eq; intro i hi
  simp only [opField, offField, datField, BitVec.getLsbD_append, BitVec.getLsbD_extractLsb']
  split_ifs
  · simp [*]
  · have h1 : 32 + (i - 32) = i := by omega
    rw [h1]; simp [*]
  · have h1 : 48 + (i - 32 - 16) = i := by omega
    rw [h1]; simp [*]
  · have h1 : 56 + (i - 32 - 16 - 8) = i := by omega
    have h2 : i - 32 - 16 - 8 < 8 := by omega
    rw [h1]; simp [h2]

end Sys2Proof
end

