-- ==== Sys2Proof/Laws/Walker.lean ====
section
/-! SUPPORT. What a walk of the capability chain does, said once. -/

namespace Sys2Proof.Machine

theorem visitsFrom_stop (L : Layout) (cfg : CfgBytes) (hops : Nat) : visitsFrom L cfg hops 0 = .ok [] := by
  cases hops <;> simp [visitsFrom]

theorem visitsFrom_limit (L : Layout) (cfg : CfgBytes) {p : Byte} (h : p ≠ 0) :
    visitsFrom L cfg 0 p = .error .hopLimit := by
  rw [visitsFrom, if_neg h]

theorem visitsFrom_hop (L : Layout) (cfg : CfgBytes) (hops : Nat) {p : Byte} (h : p ≠ 0) :
    visitsFrom L cfg (hops + 1) p = (visitsFrom L cfg hops (rdByte L cfg (p.toNat + 1))).map (nodeAt L cfg p :: ·) := by
  rw [visitsFrom, if_neg h]

/-- All a walk can do: it ends within the bound, or it raises `HopLimit`, which happens exactly when the pointer
is still non-zero after all hops (42_capability_chain.md R183). -/
theorem visitsFrom_cases (L : Layout) (cfg : CfgBytes) (hops : Nat) (p : Byte) :
    (∃ ns, visitsFrom L cfg hops p = .ok ns ∧ ns.length ≤ hops ∧ pointerAfter L cfg p ns.length = 0) ∨
      (visitsFrom L cfg hops p = .error .hopLimit ∧ ∀ k ≤ hops, pointerAfter L cfg p k ≠ 0) := by
  induction hops generalizing p with
  | zero =>
    by_cases h : p = 0
    · subst h; exact .inl ⟨[], visitsFrom_stop L cfg 0, le_refl _, rfl⟩
    · refine .inr ⟨visitsFrom_limit L cfg h, ?_⟩
      intro k hk; obtain rfl : k = 0 := by omega
      exact h
  | succ hops ih =>
    by_cases h : p = 0
    · subst h; exact .inl ⟨[], visitsFrom_stop L cfg _, Nat.zero_le _, rfl⟩
    · rw [visitsFrom_hop L cfg hops h]
      rcases ih (rdByte L cfg (p.toNat + 1)) with ⟨ns, hok, hlen, hp⟩ | ⟨herr, hall⟩
      · exact .inl ⟨nodeAt L cfg p :: ns, by rw [hok]; rfl, by simpa using hlen, by simpa [pointerAfter] using hp⟩
      · refine .inr ⟨by rw [herr]; rfl, ?_⟩
        intro k hk
        cases k with
        | zero => exact h
        | succ k => exact hall k (by omega)

/-- The three visits of this hardware's chain, from the bytes that a walk reads for control (42_capability_chain.md
R181, R188). -/
theorem visits_of_control_bytes {cfg : CfgBytes} (h34 : rdByte layout cfg 0x34 = 0x80)
    (h81 : rdByte layout cfg 0x81 = 0x70) (h71 : rdByte layout cfg 0x71 = 0xA8) (hA9 : rdByte layout cfg 0xA9 = 0x00) :
    visits layout cfg = .ok [nodeAt layout cfg 0x80, nodeAt layout cfg 0x70, nodeAt layout cfg 0xA8] := by
  have hm : layout.maxHops = 12 + 1 + 1 + 1 + 1 := rfl
  have e1 : ((0x80 : Byte).toNat + 1) = 0x81 := rfl
  have e2 : ((0x70 : Byte).toNat + 1) = 0x71 := rfl
  have e3 : ((0xA8 : Byte).toNat + 1) = 0xA9 := rfl
  rw [visits, hm, h34, visitsFrom_hop layout cfg _ (by decide), e1, h81, visitsFrom_hop layout cfg _ (by decide), e2,
    h71, visitsFrom_hop layout cfg _ (by decide), e3, hA9, visitsFrom_stop]
  rfl

/-- Under the stored-value invariant the control bytes are the reset ones. -/
theorem StoredBitsHold.controlBytes {cfg : CfgBytes} (h : StoredBitsHold layout cfg) :
    rdByte layout cfg 0x34 = 0x80 ∧ rdByte layout cfg 0x80 = 0x05 ∧ rdByte layout cfg 0x81 = 0x70 ∧
      rdByte layout cfg 0x70 = 0x01 ∧ rdByte layout cfg 0x71 = 0xA8 ∧ rdByte layout cfg 0xA8 = 0x00 ∧
      rdByte layout cfg 0xA9 = 0x00 := by
  obtain ⟨m1, m2, m3, m4, m5, m6, m7⟩ := layout_chain_bytes_fixed
  obtain ⟨r1, r2, r3, r4, r5, r6, r7⟩ := layout_chain_bytes_reset
  refine ⟨?_, ?_, ?_, ?_, ?_, ?_, ?_⟩
  · rw [h.fixed (by decide) m1, r1]
  · rw [h.fixed (by decide) m2, r2]
  · rw [h.fixed (by decide) m3, r3]
  · rw [h.fixed (by decide) m4, r4]
  · rw [h.fixed (by decide) m5, r5]
  · rw [h.fixed (by decide) m6, r6]
  · rw [h.fixed (by decide) m7, r7]

theorem StoredBitsHold.visits {cfg : CfgBytes} (h : StoredBitsHold layout cfg) :
    visits layout cfg = .ok [nodeAt layout cfg 0x80, nodeAt layout cfg 0x70, nodeAt layout cfg 0xA8] := by
  obtain ⟨h34, -, h81, -, h71, -, hA9⟩ := h.controlBytes
  exact visits_of_control_bytes h34 h81 h71 hA9

theorem StoredBitsHold.walk {cfg : CfgBytes} (h : StoredBitsHold layout cfg) :
    walk layout cfg = .ok [nodeAt layout cfg 0x80, nodeAt layout cfg 0x70] := by
  obtain ⟨-, h80, -, h70, -, hA8, -⟩ := h.controlBytes
  have i1 : (nodeAt layout cfg 0x80).id = 0x05 := h80
  have i2 : (nodeAt layout cfg 0x70).id = 0x01 := h70
  have i3 : (nodeAt layout cfg 0xA8).id = 0x00 := hA8
  rw [Machine.walk, h.visits, Except.map, List.filter_cons_of_pos (by rw [i1]; decide),
    List.filter_cons_of_pos (by rw [i2]; decide), List.filter_cons_of_neg (by rw [i3]; decide), List.filter_nil]

/-- The MSI node of this hardware's chain (42_capability_chain.md R180, R181). -/
theorem StoredBitsHold.msiNode {cfg : CfgBytes} (h : StoredBitsHold layout cfg) :
    nodeAt layout cfg 0x80 =
      ⟨0x80, 0x05, 0x70, .msi (memRead16 layout cfg 0x82) (memRead32 layout cfg 0x84) (memRead16 layout cfg 0x88)⟩ := by
  obtain ⟨-, h80, h81, -⟩ := h.controlBytes
  have e0 : (0x80 : Byte).toNat = 0x80 := rfl
  simp only [nodeAt, e0, h80, h81, payloadAt]
  rfl

/-- The Power-Management node of this hardware's chain (42_capability_chain.md R180, R181). -/
theorem StoredBitsHold.pmNode {cfg : CfgBytes} (h : StoredBitsHold layout cfg) :
    nodeAt layout cfg 0x70 = ⟨0x70, 0x01, 0xA8, .pm (memRead16 layout cfg 0x72) (memRead16 layout cfg 0x74)⟩ := by
  obtain ⟨-, -, -, h70, h71, -⟩ := h.controlBytes
  have e0 : (0x70 : Byte).toNat = 0x70 := rfl
  simp only [nodeAt, e0, h70, h71, payloadAt]
  rfl

/-- The two nodes this hardware reports, in terms of the stored bytes. -/
theorem StoredBitsHold.reportedNodes {cfg : CfgBytes} (h : StoredBitsHold layout cfg) :
    nodeAt layout cfg 0x80 = Machine.msiNode cfg ∧ nodeAt layout cfg 0x70 = Machine.pmNode cfg := by
  rw [h.msiNode, h.pmNode]; exact ⟨rfl, rfl⟩

/-- The integrity check passes on this hardware's reset image (42_capability_chain.md R187). -/
theorem chainOk_layout : chainOk layout layout.resetImage = .ok () := by
  have h := resetImage_storedBits layout
  rw [chainOk, h.walk, h.msiNode, h.pmNode]
  decide

/-- No null node is emitted (42_capability_chain.md R184). -/
theorem walk_no_null {L : Layout} {cfg : CfgBytes} {ns : List Node} (h : walk L cfg = .ok ns) :
    ∀ n ∈ ns, n.id ≠ 0 := by
  unfold walk at h
  cases hv : Machine.visits L cfg with
  | error r => rw [hv] at h; cases h
  | ok vs => rw [hv] at h; cases h; intro n hn; simpa using (List.mem_filter.mp hn).2

end Sys2Proof.Machine
end

