-- ==== Sys2Proof/Laws/Meaning.lean ====
section
/-! SUPPORT. One equation per operation: what `exec` answers, as the gate around one next state; and what any
operation and any step can do, said once. -/

namespace Sys2Proof.Machine

theorem bytesOf_extended_byte (v : Dword) : bytesOf .byte ((v.setWidth 8).setWidth 32) = bytesOf .byte v := by
  have : byteAt ((v.setWidth 8 : Byte).setWidth 32) 0 = byteAt v 0 := by
    apply BitVec.eq_of_getLsbD_eq; intro i hi
    have h32 : i < 32 := by omega
    simp [byteAt, hi, h32]
  exact congrArg (fun b => [b]) this

theorem bytesOf_extended_half (v : Dword) : bytesOf .word ((v.setWidth 16).setWidth 32) = bytesOf .word v := by
  have h (k : Nat) (hk : k < 2) : byteAt ((v.setWidth 16 : Half).setWidth 32) k = byteAt v k := by
    apply BitVec.eq_of_getLsbD_eq; intro i hi
    have h16 : 8 * k + i < 16 := by omega
    have h32 : 8 * k + i < 32 := by omega
    simp [byteAt, hi, h16, h32]
  have : ([byteAt ((v.setWidth 16 : Half).setWidth 32) 0, byteAt ((v.setWidth 16 : Half).setWidth 32) 1] : List Byte) =
      [byteAt v 0, byteAt v 1] := by rw [h 0 (by decide), h 1 (by decide)]
  exact this

/-- This hardware is the machine at its own layout. -/
theorem exec_eq_execWith (i : Instr) (s : State) : exec i s = execWith layout i s := by cases i <;> rfl

/-- Every configuration write is the write primitive behind the gate (40_config_access.md R137 to R139). -/
theorem execWith_writeOp (L : Layout) (w : Width) (off : Half) (v : Dword) (s : State) :
    execWith L (writeOp w off v) s = gate s (.next ((memWrite L off.toNat (bytesOf w v) s).respond .done)) := by
  cases w with
  | byte =>
    show configWrite L .byte off ((v.setWidth 8).setWidth 32) s = _
    rw [configWrite, bytesOf_extended_byte]; rfl
  | word =>
    show configWrite L .word off ((v.setWidth 16).setWidth 32) s = _
    rw [configWrite, bytesOf_extended_half]; rfl
  | dword => rfl

theorem exec_writeOp (w : Width) (off : Half) (v : Dword) (s : State) :
    exec (writeOp w off v) s = gate s (.next ((memWrite layout off.toNat (bytesOf w v) s).respond .done)) := by
  rw [exec_eq_execWith, execWith_writeOp]

/-- A write constructor is a write of its width. -/
theorem cfgWr8_eq_writeOp (off : Half) (dat : Byte) : Instr.cfgWr8 off dat = writeOp .byte off (dat.setWidth 32) := by
  have : (dat.setWidth 32 : Dword).setWidth 8 = dat := by
    apply BitVec.eq_of_getLsbD_eq; intro i hi
    simp [hi]
  rw [writeOp, this]

theorem cfgWr16_eq_writeOp (off : Half) (dat : Half) : Instr.cfgWr16 off dat = writeOp .word off (dat.setWidth 32) := by
  have : (dat.setWidth 32 : Dword).setWidth 16 = dat := by
    apply BitVec.eq_of_getLsbD_eq; intro i hi
    simp [hi]
  rw [writeOp, this]

theorem cfgWr32_eq_writeOp (off : Half) (dat : Dword) : Instr.cfgWr32 off dat = writeOp .dword off dat := rfl

theorem setWidth8_memRead32 (L : Layout) (cfg : CfgBytes) (o : Nat) :
    (memRead32 L cfg o).setWidth 8 = memRead8 L cfg o := by
  apply BitVec.eq_of_getLsbD_eq; intro i hi
  rw [BitVec.getLsbD_setWidth, memRead32, join4_getLsbD, if_pos hi]
  simp [hi, memRead8]

theorem setWidth16_memRead32 (L : Layout) (cfg : CfgBytes) (o : Nat) :
    (memRead32 L cfg o).setWidth 16 = memRead16 L cfg o := by
  apply BitVec.eq_of_getLsbD_eq; intro i hi
  rw [BitVec.getLsbD_setWidth, memRead32, join4_getLsbD, memRead16, BitVec.getLsbD_append]
  split <;> simp [hi]

/-- Every configuration read returns the low bytes of the four bytes from its offset (40_config_access.md R131,
R134 to R136). -/
theorem execWith_readOp (L : Layout) (w : Width) (off : Half) (s : State) :
    execWith L (readOp w off) s = gate s (.next (s.respond (dataResult w (memRead32 L s.cfg off.toNat)))) := by
  cases w with
  | byte => rw [dataResult, setWidth8_memRead32]; rfl
  | word => rw [dataResult, setWidth16_memRead32]; rfl
  | dword => rfl

theorem exec_readOp (w : Width) (off : Half) (s : State) :
    exec (readOp w off) s = gate s (.next (s.respond (dataResult w (memRead32 layout s.cfg off.toNat)))) := by
  rw [exec_eq_execWith, execWith_readOp]

/-- Every decode query is the decode function behind the gate (41_bar_logic.md R162, R163). -/
theorem execWith_decodeOp (L : Layout) (sp : Space) (addr : Dword) (s : State) :
    execWith L (decodeOp sp addr) s = gate s (.next (s.respond (decodeAddress L s sp addr))) := by
  cases sp <;> rfl

theorem exec_decodeOp (sp : Space) (addr : Dword) (s : State) :
    exec (decodeOp sp addr) s = gate s (.next (s.respond (decodeAddress layout s sp addr))) := by
  cases sp <;> rfl

theorem execWith_capWalk (L : Layout) (s : State) :
    execWith L .capWalk s = gate s (.next (s.respond (walkResult L s.cfg))) := rfl

theorem exec_capWalk (s : State) : exec .capWalk s = gate s (.next (s.respond (walkResult layout s.cfg))) := rfl

theorem execWith_capFind (L : Layout) (id : Byte) (s : State) :
    execWith L (.capFind id) s = gate s (.next (s.respond (findResult L s.cfg id))) := rfl

theorem exec_capFind (id : Byte) (s : State) :
    exec (.capFind id) s = gate s (.next (s.respond (findResult layout s.cfg id))) := rfl

/-- CONSTRUCT where the integrity check passes (70_reset_and_hazards.md R230). -/
theorem execWith_construct_ok {L : Layout} {s : State} (h : s.life = .absent) (hc : chainOk L L.resetImage = .ok ()) :
    execWith L .construct s = .next ({ s.initialise L with life := .operational }.respond .done) := by
  show constructWith L s = _
  rw [constructWith, if_pos h, initialise_cfg, hc]

/-- CONSTRUCT where it does not (60_exceptions.md R208). -/
theorem execWith_construct_fault {L : Layout} {s : State} (h : s.life = .absent) {r : IntegrityReason}
    (hc : chainOk L L.resetImage = .error r) : execWith L .construct s = .next (s.takeIntegrityFault L r) := by
  show constructWith L s = _
  rw [constructWith, if_pos h, initialise_cfg, hc]

theorem execWith_construct_refused (L : Layout) {s : State} (h : s.life ≠ .absent) :
    execWith L .construct s = .next (s.refuse .alreadyConstructed) := by
  show constructWith L s = _
  rw [constructWith, if_neg h]

theorem execWith_teardown_absent (L : Layout) {s : State} (h : s.life = .absent) :
    execWith L .teardown s = .next (s.refuse .notOperational) := by
  show teardownWith L s = _
  rw [teardownWith, if_pos h]

theorem execWith_teardown (L : Layout) {s : State} (h : s.life ≠ .absent) :
    execWith L .teardown s = .next ({ s.discard L with life := .absent }.respond .done) := by
  show teardownWith L s = _
  rw [teardownWith, if_neg h]

/-- CONSTRUCT of this hardware always passes its integrity check (70_reset_and_hazards.md R230). -/
theorem exec_construct_absent {s : State} (h : s.life = .absent) :
    exec .construct s = .next ({ s.initialise layout with life := .operational }.respond .done) :=
  execWith_construct_ok h chainOk_layout

theorem exec_construct_refused {s : State} (h : s.life ≠ .absent) :
    exec .construct s = .next (s.refuse .alreadyConstructed) := execWith_construct_refused layout h

theorem exec_teardown_absent {s : State} (h : s.life = .absent) :
    exec .teardown s = .next (s.refuse .notOperational) := execWith_teardown_absent layout h

theorem exec_teardown {s : State} (h : s.life ≠ .absent) :
    exec .teardown s = .next ({ s.discard layout with life := .absent }.respond .done) := execWith_teardown layout h

/-- Whether an operation is one of the two that construct and tear down. -/
def isLifecycle : Instr → Bool
  | .construct | .teardown => true
  | .cfgRd8 _ | .cfgRd16 _ | .cfgRd32 _ | .cfgWr8 _ _ | .cfgWr16 _ _ | .cfgWr32 _ _ => false
  | .barDecodeMem _ | .barDecodeIo _ | .capWalk | .capFind _ => false

/-- All that an operation other than the two lifecycle ones can do to an operational instance: it answers a result
with the block unchanged, or it is a write. -/
theorem execWith_operational (L : Layout) (i : Instr) {s : State} (hs : s.life = .operational)
    (hi : isLifecycle i = false) :
    (∃ r, execWith L i s = .next (s.respond r)) ∨
      ∃ w off v, i = writeOp w off v ∧
        execWith L i s = .next ((memWrite L off.toNat (bytesOf w v) s).respond .done) := by
  have hread (w : Width) (off : Half) : ∃ r, execWith L (readOp w off) s = .next (s.respond r) :=
    ⟨_, by rw [execWith_readOp, gate_operational hs]⟩
  have hdec (sp : Space) (addr : Dword) : ∃ r, execWith L (decodeOp sp addr) s = .next (s.respond r) :=
    ⟨_, by rw [execWith_decodeOp, gate_operational hs]⟩
  have hwrite (w : Width) (off : Half) (v : Dword) :
      execWith L (writeOp w off v) s = .next ((memWrite L off.toNat (bytesOf w v) s).respond .done) := by
    rw [execWith_writeOp, gate_operational hs]
  cases i with
  | cfgRd8 off => exact .inl (hread .byte off)
  | cfgRd16 off => exact .inl (hread .word off)
  | cfgRd32 off => exact .inl (hread .dword off)
  | cfgWr8 off dat => rw [cfgWr8_eq_writeOp]; exact .inr ⟨_, _, _, rfl, hwrite _ _ _⟩
  | cfgWr16 off dat => rw [cfgWr16_eq_writeOp]; exact .inr ⟨_, _, _, rfl, hwrite _ _ _⟩
  | cfgWr32 off dat => exact .inr ⟨.dword, off, dat, rfl, hwrite .dword off dat⟩
  | barDecodeMem addr => exact .inl (hdec .mem addr)
  | barDecodeIo addr => exact .inl (hdec .io addr)
  | capWalk => exact .inl ⟨_, by rw [execWith_capWalk, gate_operational hs]⟩
  | capFind id => exact .inl ⟨_, by rw [execWith_capFind, gate_operational hs]⟩
  | construct => cases hi
  | teardown => cases hi

/-- Without an operational instance every operation but the two lifecycle ones is refused (40_config_access.md
R130). -/
theorem execWith_closed (L : Layout) (i : Instr) {s : State} (hs : s.life ≠ .operational)
    (hi : isLifecycle i = false) : execWith L i s = .next (s.refuse .notOperational) := by
  cases i with
  | construct => cases hi
  | teardown => cases hi
  | cfgRd8 _ | cfgRd16 _ | cfgRd32 _ | cfgWr8 _ _ | cfgWr16 _ _ | cfgWr32 _ _ | barDecodeMem _ | barDecodeIo _
  | capWalk | capFind _ => exact gate_closed hs _

theorem exec_operational (i : Instr) {s : State} (hs : s.life = .operational) (hi : isLifecycle i = false) :
    (∃ r, exec i s = .next (s.respond r)) ∨
      ∃ w off v, i = writeOp w off v ∧
        exec i s = .next ((memWrite layout off.toNat (bytesOf w v) s).respond .done) := by
  rw [exec_eq_execWith]; exact execWith_operational layout i hs hi

theorem exec_closed (i : Instr) {s : State} (hs : s.life ≠ .operational) (hi : isLifecycle i = false) :
    exec i s = .next (s.refuse .notOperational) := by
  rw [exec_eq_execWith]; exact execWith_closed layout i hs hi

/-- All that an operation can do, over any layout (the ways an operation ends). -/
theorem execWith_cases (L : Layout) (i : Instr) (s : State) :
    (∃ r, execWith L i s = .next (s.respond r)) ∨
      (∃ w off v, i = writeOp w off v ∧ s.life = .operational ∧
        execWith L i s = .next ((memWrite L off.toNat (bytesOf w v) s).respond .done)) ∨
      (i = .construct ∧ s.life = .absent ∧ chainOk L L.resetImage = .ok () ∧
        execWith L i s = .next ({ s.initialise L with life := .operational }.respond .done)) ∨
      (∃ r, i = .construct ∧ s.life = .absent ∧ chainOk L L.resetImage = .error r ∧
        execWith L i s = .next (s.takeIntegrityFault L r)) ∨
      (i = .teardown ∧ s.life ≠ .absent ∧
        execWith L i s = .next ({ s.discard L with life := .absent }.respond .done)) := by
  cases hi : isLifecycle i with
  | false =>
    by_cases hs : s.life = .operational
    · rcases execWith_operational L i hs hi with h | ⟨w, off, v, h1, h2⟩
      · exact .inl h
      · exact .inr (.inl ⟨w, off, v, h1, hs, h2⟩)
    · exact .inl ⟨_, execWith_closed L i hs hi⟩
  | true =>
    by_cases hs : s.life = .absent
    · cases i with
      | construct =>
        cases hc : chainOk L L.resetImage with
        | ok u => exact .inr (.inr (.inl ⟨rfl, hs, rfl, execWith_construct_ok hs hc⟩))
        | error r => exact .inr (.inr (.inr (.inl ⟨r, rfl, hs, rfl, execWith_construct_fault hs hc⟩)))
      | teardown => exact .inl ⟨_, execWith_teardown_absent L hs⟩
      | _ => cases hi
    · cases i with
      | construct => exact .inl ⟨_, execWith_construct_refused L hs⟩
      | teardown => exact .inr (.inr (.inr (.inr ⟨rfl, hs, execWith_teardown L hs⟩)))
      | _ => cases hi

/-- The same of this hardware, whose construction never faults. -/
theorem exec_cases (i : Instr) (s : State) :
    (∃ r, exec i s = .next (s.respond r)) ∨
      (∃ w off v, i = writeOp w off v ∧ s.life = .operational ∧
        exec i s = .next ((memWrite layout off.toNat (bytesOf w v) s).respond .done)) ∨
      (i = .construct ∧ s.life = .absent ∧
        exec i s = .next ({ s.initialise layout with life := .operational }.respond .done)) ∨
      (i = .teardown ∧ s.life ≠ .absent ∧
        exec i s = .next ({ s.discard layout with life := .absent }.respond .done)) := by
  rw [exec_eq_execWith]
  rcases execWith_cases layout i s with h | h | ⟨h1, h2, -, h3⟩ | ⟨r, -, -, hc, -⟩ | h
  · exact .inl h
  · exact .inr (.inl h)
  · exact .inr (.inr (.inl ⟨h1, h2, h3⟩))
  · rw [chainOk_layout] at hc; cases hc
  · exact .inr (.inr (.inr h))

/-- Every operation of a well-formed layout keeps the invariant. -/
theorem execWith_inv {L : Layout} (hL : L.wellFormed = true) {i : Instr} {s t : State} (h : s.Inv L)
    (he : execWith L i s = .next t) : t.Inv L := by
  rcases execWith_cases L i s with
    ⟨r, h1⟩ | ⟨w, off, v, -, -, h1⟩ | ⟨-, -, -, h1⟩ | ⟨r, -, -, -, h1⟩ | ⟨-, -, h1⟩ <;>
    (rw [h1] at he; cases he)
  · exact h.congr rfl rfl rfl
  · exact (memWrite_inv hL h _ _).congr rfl rfl rfl
  · exact initialise_inv hL rfl rfl
  · exact .ofClosed (by simp)
  · exact .ofClosed (by simp)

/-- A run of one step more. -/
theorem run_succ (M : Host.Core) (n : Nat) (s : M.State) :
    M.run (n + 1) s = match M.step s with
      | .next u => M.run n u
      | .fault r => .fault r
      | .refused r => .refused r := rfl

/-- All that taking the next request can do. -/
theorem performNext_cases (run : Instr → State → StepOutcome) (s : State) :
    (s.requests = [] ∧ performNext run s = .refused .noRequest) ∨
      ∃ w rest, s.requests = w :: rest ∧
        ((∃ i, decode w = .op i ∧ performNext run s = run i { s with requests := rest }) ∨
          (decode w = .illegal ∧ performNext run s = .next ({ s with requests := rest }.refuse .illegalOp))) := by
  unfold performNext
  cases hr : s.requests with
  | nil => exact .inl ⟨rfl, rfl⟩
  | cons w rest =>
    refine .inr ⟨w, rest, rfl, ?_⟩
    cases hd : decode w with
    | op i => exact .inl ⟨i, rfl, by simp only [hd]⟩
    | illegal => exact .inr ⟨rfl, by simp only [hd]⟩

/-- All that a step can do. -/
theorem step_cases (s : State) :
    (s.requests = [] ∧ step s = .refused .noRequest) ∨
      ∃ w rest, s.requests = w :: rest ∧
        ((∃ i, decode w = .op i ∧ step s = exec i { s with requests := rest }) ∨
          (decode w = .illegal ∧ step s = .next ({ s with requests := rest }.refuse .illegalOp))) :=
  performNext_cases exec s

end Sys2Proof.Machine
end

