-- ==== Sys2Proof/Laws/PerInstr.lean ====
section
/-! SUPPORT. Statements made per operation. Family RoundTrip: the request word the encoder writes decodes to the
operation, with every operand at every value the encoding admits, and has zero in every bit that does not take part
(30_encoding.md R100 to R104). -/

namespace Sys2Proof.Laws.RoundTrip

def Statement (i : Instr) : Prop := decode (encode i) = .op i ∧ encode i &&& ~~~i.usedBits = 0

/-- The bits of a packed request outside a mask, from those of its fields. -/
theorem pack_unused (op : Byte) (off : Half) (dat : Dword) (m : Request)
    (hop : opField (~~~m) &&& op = 0) (hoff : offField (~~~m) &&& off = 0) (hdat : datField (~~~m) &&& dat = 0) :
    packRequest op off dat &&& ~~~m = 0 := by
  rw [BitVec.and_comm]
  apply BitVec.eq_of_getLsbD_eq; intro i hi
  have h1 := congrArg (fun b : Byte => b.getLsbD (i - 56)) hop
  have h2 := congrArg (fun b : Half => b.getLsbD (i - 32)) hoff
  have h3 := congrArg (fun b : Dword => b.getLsbD i) hdat
  simp only [opField, offField, datField, BitVec.getLsbD_and, BitVec.getLsbD_extractLsb'] at h1 h2 h3
  rw [BitVec.getLsbD_and, packRequest, BitVec.getLsbD_append, BitVec.getLsbD_append, BitVec.getLsbD_append]
  split_ifs
  · simpa [*] using h3
  · have e : 32 + (i - 32) = i := by omega
    rw [e] at h2; simpa [*] using h2
  · simp
  · have e : 56 + (i - 56) = i := by omega
    have e2 : i - 56 < 8 := by omega
    have e3 : i - 32 - 16 - 8 = i - 56 := by omega
    rw [e] at h1; rw [e3]; simpa [e2] using h1

theorem and_zero_mask {n : Nat} {m : BitVec n} (h : m = 0) (v : BitVec n) : m &&& v = 0 := by
  subst h; exact BitVec.zero_and

theorem and_high {n : Nat} {m m' v : BitVec n} (h : m = m') (hv : m' &&& v = 0) : m &&& v = 0 := by
  subst h; exact hv

theorem high_bits_of_byte (v : Byte) : (0xFFFFFF00 : Dword) &&& v.setWidth 32 = 0 := by
  apply BitVec.eq_of_getLsbD_eq; intro i hi
  rw [BitVec.getLsbD_and, BitVec.getLsbD_setWidth]
  rcases Nat.lt_or_ge i 8 with h | h
  · interval_cases i <;> rfl
  · rw [BitVec.getLsbD_of_ge v i h]; simp

theorem high_bits_of_half (v : Half) : (0xFFFF0000 : Dword) &&& v.setWidth 32 = 0 := by
  apply BitVec.eq_of_getLsbD_eq; intro i hi
  rw [BitVec.getLsbD_and, BitVec.getLsbD_setWidth]
  rcases Nat.lt_or_ge i 16 with h | h
  · interval_cases i <;> rfl
  · rw [BitVec.getLsbD_of_ge v i h]; simp

theorem byte_of_extended (v : Byte) : (v.setWidth 32 : Dword).setWidth 8 = v := by
  apply BitVec.eq_of_getLsbD_eq; intro i hi
  rw [BitVec.getLsbD_setWidth, BitVec.getLsbD_setWidth]
  have : i < 32 := by omega
  simp [hi, this]

theorem half_of_extended (v : Half) : (v.setWidth 32 : Dword).setWidth 16 = v := by
  apply BitVec.eq_of_getLsbD_eq; intro i hi
  rw [BitVec.getLsbD_setWidth, BitVec.getLsbD_setWidth]
  have : i < 32 := by omega
  simp [hi, this]

theorem cfgRd8 (off : Half) : Statement (.cfgRd8 off) := by
  refine ⟨decode_encode_operation _, ?_⟩
  show packRequest (0x01 : Byte) off (0 : Dword) &&& ~~~(0xFF00FFFF00000000 : Request) = 0
  exact pack_unused _ _ _ _ (by decide) (and_zero_mask (by decide) _) (by decide)

theorem cfgRd16 (off : Half) : Statement (.cfgRd16 off) := by
  refine ⟨decode_encode_operation _, ?_⟩
  show packRequest (0x02 : Byte) off (0 : Dword) &&& ~~~(0xFF00FFFF00000000 : Request) = 0
  exact pack_unused _ _ _ _ (by decide) (and_zero_mask (by decide) _) (by decide)

theorem cfgRd32 (off : Half) : Statement (.cfgRd32 off) := by
  refine ⟨decode_encode_operation _, ?_⟩
  show packRequest (0x04 : Byte) off (0 : Dword) &&& ~~~(0xFF00FFFF00000000 : Request) = 0
  exact pack_unused _ _ _ _ (by decide) (and_zero_mask (by decide) _) (by decide)

theorem cfgWr8 (off : Half) (dat : Byte) : Statement (.cfgWr8 off dat) := by
  refine ⟨(decode_encode_operation _).trans (congrArg (fun d => Decoded.op (.cfgWr8 off d)) (byte_of_extended dat)), ?_⟩
  show packRequest (0x11 : Byte) off (dat.setWidth 32) &&& ~~~(0xFF00FFFF000000FF : Request) = 0
  exact pack_unused _ _ _ _ (by decide) (and_zero_mask (by decide) _) (and_high (by decide) (high_bits_of_byte dat))

theorem cfgWr16 (off : Half) (dat : Half) : Statement (.cfgWr16 off dat) := by
  refine ⟨(decode_encode_operation _).trans (congrArg (fun d => Decoded.op (.cfgWr16 off d)) (half_of_extended dat)), ?_⟩
  show packRequest (0x12 : Byte) off (dat.setWidth 32) &&& ~~~(0xFF00FFFF0000FFFF : Request) = 0
  exact pack_unused _ _ _ _ (by decide) (and_zero_mask (by decide) _) (and_high (by decide) (high_bits_of_half dat))

theorem cfgWr32 (off : Half) (dat : Dword) : Statement (.cfgWr32 off dat) := by
  refine ⟨decode_encode_operation _, ?_⟩
  show packRequest (0x14 : Byte) off dat &&& ~~~(0xFF00FFFFFFFFFFFF : Request) = 0
  exact pack_unused _ _ _ _ (by decide) (and_zero_mask (by decide) _) (and_zero_mask (by decide) _)

theorem barDecodeMem (addr : Dword) : Statement (.barDecodeMem addr) := by
  refine ⟨decode_encode_operation _, ?_⟩
  show packRequest (0x20 : Byte) (0 : Half) addr &&& ~~~(0xFF000000FFFFFFFF : Request) = 0
  exact pack_unused _ _ _ _ (by decide) (by decide) (and_zero_mask (by decide) _)

theorem barDecodeIo (addr : Dword) : Statement (.barDecodeIo addr) := by
  refine ⟨decode_encode_operation _, ?_⟩
  show packRequest (0x21 : Byte) (0 : Half) addr &&& ~~~(0xFF000000FFFFFFFF : Request) = 0
  exact pack_unused _ _ _ _ (by decide) (by decide) (and_zero_mask (by decide) _)

theorem capWalk : Statement .capWalk := ⟨decode_encode_operation _, by decide⟩

theorem capFind (id : Byte) : Statement (.capFind id) := by
  refine ⟨(decode_encode_operation _).trans (congrArg (fun d => Decoded.op (.capFind d)) (byte_of_extended id)), ?_⟩
  show packRequest (0x31 : Byte) (0 : Half) (id.setWidth 32) &&& ~~~(0xFF000000000000FF : Request) = 0
  exact pack_unused _ _ _ _ (by decide) (by decide) (and_high (by decide) (high_bits_of_byte id))

theorem construct : Statement .construct := ⟨decode_encode_operation _, by decide⟩

theorem teardown : Statement .teardown := ⟨decode_encode_operation _, by decide⟩

end Sys2Proof.Laws.RoundTrip
end

