-- ==== Sys2Proof/Tests/Slice0.lean ====
section
/-! SUPPORT. Tests and witnesses. Expected values of tests are those of spec/95_test_vectors.md (the program, table or
section is named) or are worked out by hand from the rule named. A theorem `witness_<Name>` shows that the hypotheses of
`Obligations.<Name>` can be met together. -/

namespace Sys2Proof.Machine

/-! ### Helpers -/

/-- What a step or an operation answers to its issuer. -/
def answer : StepOutcome → Option Result
  | .next s => s.result
  | .fault _ => none
  | .refused _ => none

/-- The state a step or an operation leaves; `s` where it stops. -/
def left (s : State) : StepOutcome → State
  | .next t => t
  | .fault _ => s
  | .refused _ => s

/-- A fresh instance: the start state of the vectors. -/
def built : State :=
  { life := .operational, cfg := layout.resetImage, barState := allUnsized, requests := [], result := some .done }

/-- BAR0 and BAR2 based at the same I/O base, BAR5 in memory, both enables on. -/
def windows : State :=
  memWrite layout 0x04 [0x03, 0x00] (memWrite layout 0x28 [0xFF, 0x23, 0xB1, 0xFE]
    (memWrite layout 0x18 [0x00, 0xC0, 0x00, 0x00] (memWrite layout 0x10 [0x00, 0xC0, 0x00, 0x00] built)))

/-- A state with other bytes stored. -/
def withBytes (s : State) (bs : List (Nat × Byte)) : State :=
  { s with cfg := bs.foldl (fun cfg p => cfg.set p.1 p.2) s.cfg }

/-- The instance with one request presented. -/
def asked (s : State) (w : Request) : State := { s with requests := [w] }

/-- This hardware's layout with other reset bytes (95_test_vectors.md section 5). -/
def withResetByte (o : Nat) (b : Byte) : Layout :=
  { layout with fields := layout.fields.map fun f => if f.offset = o then { f with reset := b.setWidth 32 } else f }

/-- The layout that 92_eei_decisions.md keeps open: an extended configuration space (D1), BAR4 and BAR5 next to BAR3
(D3), the chain ending at the Power-Management structure (D4), and a hop bound for a larger region (D5). -/
def otherLayout : Layout :=
  { layout with
    cfgSize := 4096
    fields := layout.fields.map fun f =>
      match f.name with
      | .BAR4 => { f with offset := 0x20 }
      | .BAR5 => { f with offset := 0x24 }
      | .PM_NEXT => { f with reset := 0x00 }
      | _ => f
    bars := (layout.bars.set 4 { layout.bar 4 with offset := 0x20 }).set 5 { layout.bar 5 with offset := 0x24 }
    capRegionLo := 0x40
    capRegionHi := 0xFF
    maxHops := 48 }

/-- A fresh instance of that layout. -/
def builtOther : State := { State.resetOf otherLayout with life := .operational, result := some .done }

/-- Bases, IDs and next pointers of a chain. -/
def chainShape : Except IntegrityReason (List Node) → Except IntegrityReason (List (Byte × Byte × Byte))
  | .ok ns => .ok (ns.map fun n => (n.base, n.id, n.next))
  | .error r => .error r

/-- The nodes a chain query reports. -/
def reported : Option Result → List Node
  | some (.chain ns) => ns
  | some (.found n) => [n]
  | _ => []

/-! ### Decoding: words written out from 30_encoding.md R100, R101 -/

theorem test_decode_reads :
    decode 0x0100003400000000 = .op (.cfgRd8 0x34) ∧ decode 0x0200003C00000000 = .op (.cfgRd16 0x3C) ∧
      decode 0x0400FFFF00000000 = .op (.cfgRd32 0xFFFF) := by decide

theorem test_decode_writes :
    decode 0x1100003C12345605 = .op (.cfgWr8 0x3C 0x05) ∧ decode 0x1200002A0000FEB0 = .op (.cfgWr16 0x2A 0xFEB0) ∧
      decode 0x14000086FEE00001 = .op (.cfgWr32 0x86 0xFEE00001) := by decide

theorem test_decode_queries :
    decode 0x20000000FEB12138 = .op (.barDecodeMem 0xFEB12138) ∧ decode 0x210000000000C023 = .op (.barDecodeIo 0xC023) ∧
      decode 0x3000000000000000 = .op .capWalk ∧ decode 0x31000000ABCDEF05 = .op (.capFind 0x05) := by decide

theorem test_decode_lifecycle :
    decode 0xF000000000000000 = .op .construct ∧ decode 0xFF00000000000000 = .op .teardown := by decide

/-- The codes R105 names as illegal. -/
theorem test_decode_illegal :
    ∀ b ∈ ([0x00, 0x03, 0x08, 0x10, 0x13, 0x18, 0x22, 0x2F] : List Byte), decode (packRequest b 0x10 0) = .illegal := by
  decide

/-- R104: `rsv` is ignored always, `dat` by a read. -/
theorem test_decode_ignores :
    decode 0x04FF001000000000 = .op (.cfgRd32 0x10) ∧ decode 0x0200000012345678 = .op (.cfgRd16 0x00) := by decide

theorem test_table_word :
    decodeTableWord 64 0x31000000ABCDEF05 = some (.capFind 0x05) ∧ decodeTableWord 64 0x0300000000000000 = none := by
  decide

/-- R117: the expansions, as words. -/
theorem test_pseudo_operations :
    (sizeBar 4).map encode = [0x14000024FFFFFFFF, 0x0400002400000000] ∧
      (setBar 0 0xC001).map encode = [0x140000100000C001, 0x0400001000000000] ∧
      enableBoth.map encode = [0x1200000400000003] ∧
      resetInstance.map encode = [0xFF00000000000000, 0xF000000000000000] := by decide

/-! ### Well-formedness of layouts: one ill-formed layout per check -/

theorem test_fields_inside :
    let L := { layout with fields := ⟨.REV, 0xFF, .word, 0, 0, .readOnlyConstant⟩ :: layout.fields }
    L.fieldsInside = false ∧ L.wellFormed = false := by decide

theorem test_fields_disjoint :
    let L := { layout with fields := ⟨.REV, 0x01, .byte, 0, 0, .readOnlyConstant⟩ :: layout.fields }
    L.fieldsDisjoint = false ∧ L.wellFormed = false := by decide

theorem test_bar_sizes_powers :
    let L := { layout with bars := layout.bars.set 0 ⟨0x10, .io, false, 24, 1⟩ }
    L.barSizesPowers = false ∧ L.wellFormed = false := by decide

theorem test_bar_constants_small :
    let L := { layout with bars := layout.bars.set 5 ⟨0x28, .mem32, false, 1024, 0x400⟩ }
    let L' := { layout with bars := layout.bars.set 5 ⟨0x28, .mem32, false, 8, 0⟩ }
    L.barConstantsSmall = false ∧ L.wellFormed = false ∧ L'.barConstantsSmall = false ∧ L'.wellFormed = false := by
  decide

theorem test_no_mem64 :
    let L := { layout with bars := layout.bars.set 5 ⟨0x28, .mem64, false, 1024, 0⟩ }
    L.noMem64 = false ∧ L.wellFormed = false := by decide

theorem test_bar_fields_match :
    let L := { layout with bars := layout.bars.set 4 ⟨0x20, .io, false, 32, 1⟩ }
    L.barFieldsMatch = false ∧ L.wellFormed = false := by decide

theorem test_capability_headers_fixed :
    let L := { layout with pmBase := 0x74 }
    L.capabilityHeadersFixed = false ∧ L.wellFormed = false := by decide

theorem test_hop_bound_matches :
    let L := { layout with maxHops := 15 }
    L.hopBoundMatches = false ∧ L.wellFormed = false := by decide

theorem test_classes_match :
    let L := { layout with fields := ⟨.REV, 0x20, .byte, 0, 0xFF, .readOnlyConstant⟩ :: layout.fields }
    L.classesMatch = false ∧ L.attributesFit = false := by decide

theorem test_flag_bits_match :
    let L := { layout with bars := layout.bars.set 5 ⟨0x28, .mem32, true, 1024, 0⟩ }
    L.flagBitsMatch = false ∧ L.attributesFit = false := by decide

/-! ### One step of each operation -/

/-- Section 2: the high byte of VID; the reserved byte at 0x0E. -/
theorem test_cfgRd8 :
    answer (step (asked built 0x0100000100000000)) = some (.data8 0x80) ∧
      answer (step (asked built 0x0100000E00000000)) = some (.data8 0x00) := by decide +kernel

/-- Section 2: across VID and DID; across the end of the extent. -/
theorem test_cfgRd16 :
    answer (step (asked built 0x0200000100000000)) = some (.data16 0x8080) ∧
      answer (step (asked built 0x020000FF00000000)) = some (.data16 0x0000) := by decide +kernel

/-- Section 2: STS, REV and PI; the capability region from below; past offset 0xFFFF. -/
theorem test_cfgRd32 :
    answer (step (asked built 0x0400000600000000)) = some (.data32 0x010002B0) ∧
      answer (step (asked built 0x0400006E00000000)) = some (.data32 0xA8010000) ∧
      answer (step (asked built 0x0400FFFF00000000)) = some (.data32 0x00000000) := by decide +kernel

/-- Section 2: the data is cut to the byte, INTPN stays. -/
theorem test_cfgWr8 :
    let t := left built (step (asked built 0x1100003C12345605))
    t.result = some .done ∧ byteSeen t.cfg 0x3C = 0x05 ∧ byteSeen t.cfg 0x3D = 0x02 := by decide +kernel

/-- Section 3, BAR5: from Sizing one byte write leads to Based. -/
theorem test_cfgWr8_bar :
    let s := memWrite layout 0x28 [0xFF, 0xFF, 0xFF, 0xFF] built
    let t := left s (step (asked s 0x1100002900000000))
    s.barState[5] = .sizing ∧ t.barState[5] = .based ∧ barValue layout t.cfg 5 = 0xFFFF0000 := by decide +kernel

/-- Section 2: Status has no bit that a write clears. -/
theorem test_cfgWr16 :
    let t := left built (step (asked built 0x120000060000FFFF))
    t.result = some .done ∧ memRead16 layout t.cfg 0x06 = 0x02B0 := by decide +kernel

/-- Section 3, BAR5: the candidate takes the stored low half. -/
theorem test_cfgWr16_bar :
    let s := memWrite layout 0x28 [0x00, 0xFC, 0xB1, 0xFE] built
    let t := left s (step (asked s 0x1200002A0000FFFF))
    s.barState[5] = .based ∧ t.barState[5] = .sizing ∧ barValue layout t.cfg 5 = 0xFFFFFC00 := by decide +kernel

/-- P4, line 11: one write that moves two BARs. -/
theorem test_cfgWr32 :
    let s := memWrite layout 0x0E [0xFF, 0xFF, 0xFF, 0xFF] built
    let t := left s (step (asked s 0x14000012FFFFFFFF))
    barValue layout s.cfg 0 = 0x0000FFF9 ∧ s.barState[0] = .based ∧ t.result = some .done ∧
      barValue layout t.cfg 0 = 0xFFFFFFF9 ∧ t.barState[0] = .sizing ∧ barValue layout t.cfg 1 = 0x0000FFFD ∧
      t.barState[1] = .based ∧ t.barState[2] = .unsized := by decide +kernel

/-- Section 3, BAR4: the candidate 0xFFFFF0A1 is not all ones; BAR5's low half is written too. -/
theorem test_cfgWr32_straddling :
    let s := memWrite layout 0x24 [0xA5, 0xF0, 0x00, 0x00] built
    let t := left s (step (asked s 0x14000026FFFFFFFF))
    barValue layout t.cfg 4 = 0xFFFFF0A1 ∧ t.barState[4] = .based ∧ barValue layout t.cfg 5 = 0x0000FC00 ∧
      t.barState[5] = .based := by decide +kernel

/-- P2, lines 10 to 14. -/
theorem test_barDecodeMem :
    answer (step (asked windows 0x20000000FEB12138)) = some (.mapped 5 0x138) ∧
      answer (step (asked windows 0x20000000FEB123FF)) = some (.mapped 5 0x3FF) ∧
      answer (step (asked windows 0x20000000FEB12400)) = some .notMapped ∧
      answer (step (asked windows 0x200000000000C000)) = some .notMapped := by decide +kernel

/-- Section 3, decode: BAR0 and BAR2 overlap, the lower index answers; outside both windows nothing does. -/
theorem test_barDecodeIo :
    answer (step (asked windows 0x210000000000C003)) = some (.mapped 0 0x3) ∧
      answer (step (asked windows 0x210000000000C008)) = some .notMapped ∧
      answer (step (asked built 0x2100000000000000)) = some .notMapped := by decide +kernel

/-- P3, lines 6 to 8 and 18: the payload as stored now. -/
theorem test_capWalk :
    let s := withBytes built [(0x82, 0x01), (0x83, 0x00), (0x84, 0x00), (0x85, 0x00), (0x86, 0xE0), (0x87, 0xFE),
      (0x88, 0x41), (0x89, 0x40)]
    let ns := reported (answer (step (asked s 0x3000000000000000)))
    ns.map (fun n => (n.base, n.id, n.next)) = [(0x80, 0x05, 0x70), (0x70, 0x01, 0xA8)] ∧
      ns.head?.map Node.payload = some (.msi 0x0001 0xFEE00000 0x4041) := by decide +kernel

/-- Section 4. -/
theorem test_capFind :
    (reported (answer (step (asked built 0x3100000000000001)))).map (fun n => (n.base, n.id, n.next)) =
        [(0x70, 0x01, 0xA8)] ∧
      answer (step (asked built 0x3100000000000010)) = some .absent ∧
      answer (step (asked built 0x3100000000000000)) = some .absent := by decide +kernel

/-- P6, lines 2 and 3. -/
theorem test_construct :
    answer (step (asked State.reset 0xF000000000000000)) = some .done ∧
      (left State.reset (step (asked State.reset 0xF000000000000000))).life = .operational ∧
      answer (step (asked built 0xF000000000000000)) = some (.refused .alreadyConstructed) := by decide +kernel

/-- P6, lines 4 to 6 and 8: the written INTLN does not survive. -/
theorem test_teardown :
    let s := memWrite layout 0x3C [0x05] built
    let t := left s (step (asked s 0xFF00000000000000))
    t.life = .absent ∧ t.result = some .done ∧ byteSeen (left t (exec .construct t)).cfg 0x3C = 0x0B ∧
      answer (step (asked t 0xFF00000000000000)) = some (.refused .notOperational) := by decide +kernel

/-- Section 2, refusals: decoding comes before the gate. -/
theorem test_refusals :
    answer (step (asked State.reset 0x0300000000000000)) = some (.refused .illegalOp) ∧
      answer (step (asked State.reset 0x0200000000000000)) = some (.refused .notOperational) := by decide +kernel

/-- A table word placed by the host runs as the very next step. -/
theorem test_withFetchWord :
    answer (step (State.reset.withFetchWord 64 0xF000000000000000)) = some .done ∧
      answer (step (built.withFetchWord 64 0x0100003400000000)) = some (.data8 0x80) := by decide +kernel

/-! ### Malformed chains (95_test_vectors.md section 5) -/

theorem test_malformed_walks :
    chainShape (walk (withResetByte 0x71 0x00) (withResetByte 0x71 0x00).resetImage) =
      .ok [(0x80, 0x05, 0x70), (0x70, 0x01, 0x00)] ∧
    chainShape (walk (withResetByte 0x71 0x80) (withResetByte 0x71 0x80).resetImage) = .error .hopLimit ∧
    chainShape (walk (withResetByte 0x34 0xFF) (withResetByte 0x34 0xFF).resetImage) = .ok [] ∧
    chainShape (walk (withResetByte 0x34 0x34) (withResetByte 0x34 0x34).resetImage) = .ok [(0x34, 0x34, 0x00)] ∧
    chainShape (walk (withResetByte 0x34 0x08) (withResetByte 0x34 0x08).resetImage) =
      .ok [(0x01, 0x80, 0x80), (0x80, 0x05, 0x70), (0x70, 0x01, 0xA8)] := by decide +kernel

theorem test_malformed_constructions :
    (∀ p ∈ [(0x71, (0x80 : Byte)), (0x81, 0x80)],
      answer (constructWith (withResetByte p.1 p.2) State.reset) = some (.fault .hopLimit)) ∧
    (∀ p ∈ [(0x34, (0x00 : Byte)), (0x81, 0x00), (0x80, 0x09), (0x34, 0xFF), (0x34, 0x34), (0x34, 0x08)],
      answer (constructWith (withResetByte p.1 p.2) State.reset) = some (.fault .wrongSet)) ∧
    answer (constructWith (withResetByte 0x71 0x00) State.reset) = some .done ∧
    (left State.reset (constructWith (withResetByte 0x71 0x80) State.reset)).life = .failed := by decide +kernel

/-! ### Another layout (00_scope.md R9; 92_eei_decisions.md D1, D3 to D5) -/

theorem test_other_layout : otherLayout.wellFormed = true ∧ otherLayout.capPtr = 0x80 ∧ otherLayout.pmNext = 0x00 := by
  decide

/-- Its CONSTRUCT passes; its BAR4 is sized at 0x20, where this hardware has reserved bytes; offset 0x100 is inside. -/
theorem test_other_layout_steps :
    answer (stepWith otherLayout (asked (State.resetOf otherLayout) 0xF000000000000000)) = some .done ∧
      (let t := left builtOther (stepWith otherLayout (asked builtOther 0x14000020FFFFFFFF))
       t.barState[4] = .sizing ∧ barValue otherLayout t.cfg 4 = 0xFFFFFFE1) ∧
      answer (stepWith otherLayout (asked (withBytes builtOther [(0x100, 0x5A)]) 0x0100010000000000)) =
        some (.data8 0x5A) := by decide +kernel

/-! ### Witnesses: the hypotheses of the statements can be met -/

theorem built_inv : built.Inv layout := initialise_inv layout_wellFormed rfl rfl

theorem windows_inv : windows.Inv layout := by
  have hL := layout_wellFormed
  exact memWrite_inv hL (memWrite_inv hL (memWrite_inv hL (memWrite_inv hL built_inv _ _) _ _) _ _) _ _

theorem asked_inv {L : Layout} (s : State) (w : Request) (h : s.Inv L) : (asked s w).Inv L := h.congr rfl rfl rfl

theorem built_extent : built.cfg.length = 256 := resetImage_length layout

theorem builtOther_inv : builtOther.Inv otherLayout := initialise_inv (by decide) rfl rfl

/-- BAR0 as the sizing write leaves it. -/
def sizing0 : State := memWrite layout 0x10 [0xFF, 0xFF, 0xFF, 0xFF] built

theorem sizing0_inv : sizing0.Inv layout := memWrite_inv layout_wellFormed built_inv _ _

/-- An instance whose construction failed. -/
def broken : State := { State.reset with life := .failed }

/-- A write behind the gate, by the parts of its next state. -/
theorem writeOp_next (s : State) (hs : s.life = .operational) (w : Width) (off : Half) (v : Dword) :
    exec (writeOp w off v) s = .next ((memWrite layout off.toNat (bytesOf w v) s).respond .done) := by
  rw [exec_writeOp, gate_operational hs]

theorem witness_IgnoredFieldsTakeNoPart :
    let w : Request := 0x04FF001000000000; let w' : Request := 0x0400001012345678; let i : Instr := .cfgRd32 0x10
    decode w = .op i ∧ w &&& i.usedBits = w' &&& i.usedBits ∧ w ≠ w' := by decide

theorem witness_IllegalExactlyOutsideTheTable :
    (asked State.reset 0x0300000000000000).requests = 0x0300000000000000 :: [] ∧ decode 0x0300000000000000 = .illegal ∧
      decode 0xFE00000000000000 = .illegal := by decide

theorem witness_DecodedWordReencodes : decode 0x31000000ABCDEF05 = .op (.capFind 0x05) := by decide

theorem witness_StepPerformsTheNextRequest :
    (asked built 0x0400001000000000).requests = 0x0400001000000000 :: [] ∧
      decode 0x0400001000000000 = .op (.cfgRd32 0x10) ∧
      (asked built 0x3000000000000000).requests = encode .capWalk :: [] := by decide

theorem witness_StepAnswersEveryRequest : (asked built 0x0300000000000000).requests = 0x0300000000000000 :: [] := rfl

theorem witness_StepStopsOnlyWithoutARequest : built.requests = [] ∧ step built = .refused .noRequest := ⟨rfl, rfl⟩

theorem witness_GateRefusesWithoutAnInstance :
    State.reset.life ≠ .operational ∧ broken.life ≠ .operational ∧ Instr.capWalk ≠ .construct ∧
      Instr.capWalk ≠ .teardown := by decide

theorem witness_ConstructLeavesTheResetState : State.reset.life = .absent := rfl

theorem witness_SecondConstructIsRefused : built.life ≠ .absent ∧ broken.life ≠ .absent := by decide

theorem witness_TeardownDestroysTheInstance :
    State.reset.life = .absent ∧ built.life ≠ .absent ∧ broken.life ≠ .absent := by decide

/-- Two different states that are one block: while a request is left, and when none is. -/
theorem witness_ContentsWithoutAnInstanceAreUnobservable :
    let s := asked State.reset 0xF000000000000000
    let s' := { s with barState := Vector.replicate 6 .based }
    SameBlock s s' ∧ s ≠ s' ∧ (∃ t, step s = .next t) ∧
      SameBlock State.reset { State.reset with barState := Vector.replicate 6 .based } ∧
      step State.reset = .refused .noRequest := by
  refine ⟨⟨rfl, rfl, rfl, fun h => nomatch h⟩, ?_, ?_, ⟨rfl, rfl, rfl, fun h => nomatch h⟩, rfl⟩
  · intro h; exact absurd (congrArg State.barState h) (by decide)
  · exact ⟨_, exec_construct_absent (s := { State.reset with requests := [] }) rfl⟩

theorem witness_OnlyLifecycleOperationsChangeLife :
    (∃ t, exec .construct State.reset = .next t ∧ t.life ≠ State.reset.life) ∧
      ∃ t, exec .teardown built = .next t ∧ t.life ≠ built.life :=
  ⟨⟨_, exec_construct_absent rfl, by decide⟩, ⟨_, exec_teardown (by decide), by decide⟩⟩

/-- A layout for each reason. -/
theorem witness_FailedIntegrityCheckAbortsConstruction :
    State.reset.life = .absent ∧
      chainOk (withResetByte 0x81 0x80) (withResetByte 0x81 0x80).resetImage = .error .hopLimit ∧
      chainOk (withResetByte 0x34 0x00) (withResetByte 0x34 0x00).resetImage = .error .wrongSet := by
  refine ⟨rfl, ?_, ?_⟩ <;> rfl

theorem witness_ThisHardwareNeverFaults :
    (asked built 0x3000000000000000).Inv layout ∧ (asked built 0x3000000000000000).life ≠ .failed ∧
      ∃ t, step (asked built 0x3000000000000000) = .next t :=
  ⟨asked_inv _ _ built_inv, by decide, _, rfl⟩

theorem witness_ReadsReturnTheStoredBytes : built.life = .operational := rfl

theorem witness_WritesMergeUnderTheWriteMask : built.life = .operational ∧ built.cfg.length = 256 := ⟨rfl, built_extent⟩

/-- A write that covers two bytes of BAR0 (the candidate takes the other two from what is stored), and one that covers
none: BAR0 ends at 0x13. -/
theorem witness_WritesDriveTheBarStateMachine :
    built.life = .operational ∧
      (∃ t, exec (writeOp .word 0x12 0xFFFF) built = .next t) ∧
      (∀ j < 4, byteAt 0xFFFF0001 j =
        if 0x12 ≤ (layout.bar 0).offset + j ∧ (layout.bar 0).offset + j < 0x12 + Width.word.bytes then
          byteAt 0xFFFF ((layout.bar 0).offset + j - 0x12)
        else byteSeen built.cfg ((layout.bar 0).offset + j)) ∧
      (∃ t, exec (writeOp .dword 0x14 0) built = .next t) ∧
      ∀ j < 4, byteAt 0x00000001 j =
        if 0x14 ≤ (layout.bar 0).offset + j ∧ (layout.bar 0).offset + j < 0x14 + Width.dword.bytes then
          byteAt 0 ((layout.bar 0).offset + j - 0x14)
        else byteSeen built.cfg ((layout.bar 0).offset + j) :=
  ⟨rfl, ⟨_, writeOp_next built rfl _ _ _⟩, by decide +kernel, ⟨_, writeOp_next built rfl _ _ _⟩, by decide +kernel⟩

theorem witness_ReadAfterWriteReturnsTheMerge :
    built.life = .operational ∧ built.cfg.length = 256 ∧ (∃ t, exec (writeOp .dword 0xFE 0xAABBCCDD) built = .next t) ∧
      (∃ t, exec (writeOp .dword 0x84 0xFEE00000) built = .next t) ∧
      ((0x84, .dword) : Half × Width) ∈ ([(0x04, .word), (0x3C, .byte), (0x74, .word), (0x82, .word), (0x84, .dword),
        (0x88, .word)] : List (Half × Width)) :=
  ⟨rfl, built_extent, ⟨_, writeOp_next built rfl _ _ _⟩, ⟨_, writeOp_next built rfl _ _ _⟩, by decide⟩

theorem witness_WriteEqualsItsByteWritesInAnyOrder :
    [3, 1, 0, 2].Perm (List.range Width.dword.bytes) ∧ [1, 0].Perm (List.range Width.word.bytes) := by decide

/-- A run of one step; a byte of VID, of PMC's field and a reserved byte. -/
theorem witness_ReadOnlyBytesKeepTheirResetValue :
    (asked built 0x0100000000000000).Inv layout ∧
      (∃ t, Host.Core.run core 1 (asked built 0x0100000000000000) = .next t ∧ State.life t = .operational) ∧
      layout.wmask 0x00 = 0 ∧ (∃ f ∈ layout.fields, f.name = .PMC ∧ f.covers 0x73 = true) ∧
      layout.fieldAt 0x0C = none :=
  ⟨asked_inv _ _ built_inv, ⟨_, rfl, rfl⟩, by decide, by decide, by decide⟩

/-- Both ends of every reserved range, and what lies just outside. -/
theorem witness_ReservedOffsetsReadZero :
    built.Inv layout ∧ built.life = .operational ∧
      (∀ o ∈ [0x0C, 0x0F, 0x20, 0x23, 0x2C, 0x33, 0x35, 0x3B, 0x3E, 0x6F, 0x76, 0x7F, 0x8A, 0xFF, 0x100, 0xFFFF],
        ReservedOffset o) ∧
      ∀ o ∈ [0x0B, 0x10, 0x1F, 0x24, 0x2B, 0x34, 0x3C, 0x3D, 0x70, 0x75, 0x80, 0x89], ¬ ReservedOffset o := by
  refine ⟨built_inv, rfl, ?_, ?_⟩ <;> · unfold ReservedOffset; decide

/-- An access across the end of the extent, two values that agree inside it, and an access wholly beyond. -/
theorem witness_BytesBeyondTheExtentAreAbsorbed :
    built.life = .operational ∧ (2 < Width.dword.bytes ∧ 256 ≤ (0xFE : Half).toNat + 2) ∧
      (∀ k < Width.dword.bytes, (0xFE : Half).toNat + k < 256 → byteAt 0xAABBCCDD k = byteAt 0x1122CCDD k) ∧
      256 ≤ (0x100 : Half).toNat := by decide +kernel

/-- A write off the BARs and Command, a write that clears both enables, a write onto the edge of BAR0, a write that
stores what BAR0 holds. -/
theorem witness_WritesHaveSideEffectsOnlyAtTheirOffsets :
    sizing0.Inv layout ∧ sizing0.life = .operational ∧
      (∃ t, exec (writeOp .byte 0x3C 0x05) sizing0 = .next t) ∧
      (∀ a, (0x3C : Half).toNat ≤ a → a < (0x3C : Half).toNat + Width.byte.bytes →
        ¬ (0x10 ≤ a ∧ a ≤ 0x1F) ∧ ¬ (0x24 ≤ a ∧ a ≤ 0x2B) ∧ a ≠ 0x04 ∧ a ≠ 0x05) ∧
      (∃ r, exec (decodeOp .io 0xC000) sizing0 = .next { sizing0 with result := some r }) ∧
      ((0x02 : Half).toNat ≤ 0x04 ∧ 0x04 < (0x02 : Half).toNat + Width.dword.bytes ∧
        ∀ sp : Space, (byteAt 0xFF00FFFF (0x04 - (0x02 : Half).toNat)).getLsbD (if sp = .io then 0 else 1) = false) ∧
      ((0x0F : Half).toNat < (layout.bar 0).offset + 4 ∧ (layout.bar 0).offset < (0x0F : Half).toNat + Width.word.bytes) ∧
      (∃ t, exec (writeOp .dword 0x10 0xFFFFFFF9) sizing0 = .next t ∧ t.cfg = sizing0.cfg) ∧
      sizing0.barState[0] ≠ .unsized := by
  refine ⟨sizing0_inv, rfl, ⟨_, writeOp_next sizing0 rfl _ _ _⟩, ?_, ⟨_, rfl⟩,
    ⟨by decide, by decide, fun sp => by cases sp <;> decide⟩, by decide,
    ⟨_, writeOp_next sizing0 rfl _ _ _, ?_⟩, by decide +kernel⟩
  · intro a h1 h2
    have h3 : (0x3C : Half).toNat = 0x3C := rfl
    have h4 : Width.byte.bytes = 1 := rfl
    omega
  · have hlen : sizing0.cfg.length = layout.cfgSize := (sizing0_inv rfl).extent
    refine cfg_ext_rdByte layout (by rw [respond_cfg, memWrite_cfg, storeBytes_length, hlen]) hlen fun x hx => ?_
    rw [respond_cfg, memWrite_cfg, rdByte_storeBytes_inside layout _ hlen _ hx]
    split
    · rename_i h
      have h1 : (0x10 : Half).toNat = 0x10 := rfl
      rw [bytesOf_length, show Width.dword.bytes = 4 from rfl] at h
      have : x ∈ [0x10, 0x11, 0x12, 0x13] := by simp; omega
      simp only [List.mem_cons, List.not_mem_nil, or_false] at this
      clear h h1 hx
      rcases this with rfl | rfl | rfl | rfl <;> decide +kernel
    · rfl

theorem witness_OnlyConstructionAndWritesStoreBytes :
    State.reset.life = .absent ∧
      ∃ t, exec (writeOp .byte 0x3C 0x05) built = .next t ∧ t.life = .operational ∧ 
        byteSeen t.cfg 0x3C ≠ byteSeen built.cfg 0x3C :=
  ⟨rfl, _, writeOp_next built rfl _ _ _, rfl, by decide +kernel⟩

theorem witness_IdentityRegistersAreConstant : windows.Inv layout ∧ windows.life = .operational := ⟨windows_inv, rfl⟩

/-- An operational state that steps, and one without an instance. -/
theorem witness_StoredBitsAreKept :
    ((asked built 0x0100000000000000).life = .operational → StoredBitsHold layout (asked built 0x0100000000000000).cfg) ∧
      (∃ t, step (asked built 0x0100000000000000) = .next t ∧ t.life = .operational) ∧
      ∃ t, step (asked State.reset 0xF000000000000000) = .next t ∧ t.life = .operational :=
  ⟨fun _ => resetImage_storedBits layout, ⟨_, rfl, rfl⟩,
    ⟨_, exec_construct_absent (s := { State.reset with requests := [] }) rfl, rfl⟩⟩

theorem witness_BarStateAndRegisterCorrespond :
    (asked sizing0 0x0400001000000000).Inv layout ∧ (∃ t, step (asked sizing0 0x0400001000000000) = .next t) ∧
      sizing0.life = .operational ∧
      barValue layout sizing0.cfg 0 = barValue layout (asked sizing0 0x0400001000000000).cfg 0 ∧
      (sizing0.barState[(0 : Fin 6)] = .unsized ↔ (asked sizing0 0x0400001000000000).barState[(0 : Fin 6)] = .unsized) :=
  ⟨asked_inv _ _ sizing0_inv, ⟨_, rfl⟩, rfl, rfl, Iff.rfl⟩

/-- Bases at both ends of what a BAR can be given. -/
theorem witness_SizingProtocolRoundTrip :
    windows.Inv layout ∧ windows.life = .operational ∧
      ((layout.bar 5).size ∣ (0xFFFFF800 : Dword).toNat ∧ (0xFFFFF800 : Dword).toNat < 2 ^ 32 - (layout.bar 5).size) ∧
      (layout.bar 1).size ∣ (0 : Dword).toNat ∧ (0 : Dword).toNat < 2 ^ 32 - (layout.bar 1).size :=
  ⟨windows_inv, rfl, by decide, by decide, by decide⟩

theorem witness_MisalignedBaseDropsTheLowBits : windows.Inv layout ∧ windows.life = .operational := ⟨windows_inv, rfl⟩

theorem witness_TopmostBaseIsASizingWrite : built.life = .operational := rfl

theorem witness_OnlyTouchingWritesMoveABar :
    ∃ t, exec (.cfgWr32 0x10 0x00000001) built = .next t ∧ built.life = .operational ∧ t.life = .operational ∧
      t.barState[(0 : Fin 6)] ≠ built.barState[(0 : Fin 6)] :=
  ⟨_, writeOp_next built rfl .dword 0x10 0x00000001, rfl, rfl, by decide +kernel⟩

/-- A layout with an unused BAR5, for the second clause a well-formed one. -/
theorem witness_BarOfSizeZeroTakesNoPart :
    let L : Layout := { layout with
      fields := layout.fields.map fun f => if f.offset = 0x28 then { f with wmask := 0, cls := .readOnlyConstant } else f
      bars := layout.bars.set 5 ⟨0x28, .mem32, false, 0, 0⟩ }
    (L.bar 5).size = 0 ∧ L.wellFormed = true := by decide

/-- An address no window holds, an enable that is off, an address in a window of each space. -/
theorem witness_DecodeAnswersFromTheWindows :
    windows.life = .operational ∧ (∀ i, ¬ InWindow windows .io 0xC008 i) ∧
      (byteSeen built.cfg 0x04).getLsbD (if Space.io = .io then 0 else 1) = false ∧
      (byteSeen windows.cfg 0x04).getLsbD (if Space.io = .io then 0 else 1) = true ∧
      (byteSeen windows.cfg 0x04).getLsbD (if Space.mem = .io then 0 else 1) = true ∧
      InWindow windows .io 0xC007 0 ∧ InWindow windows .mem 0xFEB12000 5 := by
  unfold InWindow
  decide +kernel

theorem witness_OverlapGoesToTheLowestIndex :
    windows.life = .operational ∧ (byteSeen windows.cfg 0x04).getLsbD (if Space.io = .io then 0 else 1) = true ∧
      InWindow windows .io 0xC003 0 ∧ InWindow windows .io 0xC003 2 ∧ (∀ j < (0 : Fin 6), ¬ InWindow windows .io 0xC003 j) ∧
      InWindow windows .mem 0xFEB123FF 5 ∧ ∀ j < (5 : Fin 6), ¬ InWindow windows .mem 0xFEB123FF j := by
  unfold InWindow
  decide +kernel

/-- Each clause of the memory decode. -/
theorem witness_MemoryDecodeSeesOnlyTheAhciWindow :
    State.reset.life ≠ .operational ∧ (built.life = .operational ∧ (byteSeen built.cfg 0x04).getLsbD 1 = false) ∧
      (sizing0.life = .operational ∧ sizing0.barState[5] ≠ .based) ∧
      (windows.life = .operational ∧ (byteSeen windows.cfg 0x04).getLsbD 1 = true ∧ windows.barState[5] = .based ∧
        (0xFEB12000 : Dword) =
          (byteSeen windows.cfg 0x2B ++ byteSeen windows.cfg 0x2A ++ byteSeen windows.cfg 0x29 ++
            byteSeen windows.cfg 0x28) &&& 0xFFFFFC00) := by
  decide +kernel

theorem witness_NothingIsMappedAfterConstruct :
    State.reset.life = .absent ∧ ∃ t, exec .construct State.reset = .next t := ⟨rfl, _, exec_construct_absent rfl⟩

theorem witness_WindowsAreAlignedAndDoNotWrap :
    windows.Inv layout ∧ windows.life = .operational ∧ windows.barState[(5 : Fin 6)] = .based ∧
      windows.barState[(1 : Fin 6)] ≠ .based := ⟨windows_inv, rfl, by decide +kernel, by decide +kernel⟩

theorem witness_CommandWriteActsOnTheNextDecode :
    windows.life = .operational ∧ windows.cfg.length = 256 ∧ (0x0002 : Half).getLsbD (if Space.io = .io then 0 else 1) = false ∧
      (0x0002 : Half).getLsbD (if Space.mem = .io then 0 else 1) = true ∧ InWindow windows .mem 0xFEB12000 5 := by
  unfold InWindow
  decide +kernel

theorem witness_WalkReportsMsiThenPm : windows.Inv layout ∧ windows.life = .operational := ⟨windows_inv, rfl⟩

theorem witness_ChainOfThisHardwareAsStored : windows.Inv layout ∧ windows.life = .operational := ⟨windows_inv, rfl⟩

theorem witness_FindReturnsTheNodeWithTheId :
    windows.Inv layout ∧ windows.life = .operational ∧ (0x00 : Byte) ≠ 0x05 ∧ (0x00 : Byte) ≠ 0x01 :=
  ⟨windows_inv, rfl, by decide, by decide⟩

/-- A chain that never ends, and the hops after which the pointer of this hardware's chain is zero. -/
theorem witness_WalkIsBounded :
    (∀ k ≤ 16, pointerAfter (withResetByte 0x81 0x80) (withResetByte 0x81 0x80).resetImage 0x80 k ≠ 0) ∧
      pointerAfter layout layout.resetImage 0x80 3 = 0 := by decide +kernel

theorem witness_QueriesChangeNothing : built.life = .operational ∧ isQuery .capWalk = true := ⟨rfl, rfl⟩

theorem witness_GuestIsNeverAnsweredAnError :
    windows.Inv layout ∧ windows.life = .operational ∧ (Instr.cfgWr8 0x06 0xFF).issuer = .guest := ⟨windows_inv, rfl, rfl⟩

theorem witness_EveryStepOfAnyLayoutKeepsTheInvariant :
    otherLayout.wellFormed = true ∧ (asked builtOther 0x1400002000000001).Inv otherLayout ∧
      ∃ t, stepWith otherLayout (asked builtOther 0x1400002000000001) = .next t :=
  ⟨by decide, asked_inv _ _ builtOther_inv, _, rfl⟩

/-- A change of `life`, and a fault, each reached. -/
theorem witness_AnyLayoutAnswersEveryRequest :
    (asked builtOther 0xFF00000000000000).requests = 0xFF00000000000000 :: [] ∧
      (left builtOther (stepWith otherLayout (asked builtOther 0xFF00000000000000))).life ≠ builtOther.life ∧
      answer (stepWith (withResetByte 0x81 0x80) (asked State.reset 0xF000000000000000)) = some (.fault .hopLimit) := by
  decide +kernel

theorem witness_ConstructionOfAnyLayout :
    (State.resetOf otherLayout).life = .absent ∧ chainOk otherLayout otherLayout.resetImage = .ok () ∧
      State.reset.life = .absent ∧ chainOk layout layout.resetImage = .ok () := by
  refine ⟨rfl, ?_, rfl, chainOk_layout⟩; rfl

theorem witness_ReadsAndWritesOfAnyLayout :
    builtOther.life = .operational ∧ builtOther.cfg.length = otherLayout.cfgSize := ⟨rfl, resetImage_length otherLayout⟩

/-- Bases at both ends of what BAR4 of the other layout can be given. -/
theorem witness_SizingProtocolOfAnyLayout :
    otherLayout.wellFormed = true ∧ builtOther.Inv otherLayout ∧ builtOther.life = .operational ∧
      (otherLayout.bar 4).size ≠ 0 ∧ (0x20 : Half).toNat = (otherLayout.bar 4).offset ∧
      ((otherLayout.bar 4).size ∣ (0xFFFFFFC0 : Dword).toNat ∧
        (0xFFFFFFC0 : Dword).toNat < 2 ^ 32 - (otherLayout.bar 4).size) ∧
      (otherLayout.bar 4).size ∣ (0 : Dword).toNat ∧ (0 : Dword).toNat < 2 ^ 32 - (otherLayout.bar 4).size :=
  ⟨by decide, builtOther_inv, rfl, by decide, rfl, by decide, by decide, by decide⟩

/-- The other layout with BAR4 based and the I/O enable on: an address in the window, one just past it; and, with no
write to Command, the enable off. -/
theorem witness_DecodeOfAnyLayout :
    let t := memWrite otherLayout 0x04 [0x01] (memWrite otherLayout 0x20 [0x20, 0xC0, 0x00, 0x00] builtOther)
    otherLayout.wellFormed = true ∧ t.life = .operational ∧ (rdByte otherLayout t.cfg 0x04).getLsbD 0 = true ∧
      (rdByte otherLayout builtOther.cfg 0x04).getLsbD 0 = false ∧
      answer (execWith otherLayout (.barDecodeIo 0xC03F) t) = some (.mapped 4 0x1F) ∧
      answer (execWith otherLayout (.barDecodeIo 0xC040) t) = some .notMapped := by decide +kernel

end Sys2Proof.Machine
end

section
/-! PROOFS. O10 and O28: CONSTRUCT stores the image that 10_state.md R66 prints, and the identification registers are
constant because none of their bits can be written. -/

namespace Sys2Proof.Machine

/-! ### The reset image is the printed one -/

theorem bytesFrom_append (f : Nat → Byte) (m n o : Nat) :
    bytesFrom f m o ++ bytesFrom f n (o + m) = bytesFrom f (m + n) o := by
  induction m generalizing o with
  | zero => simp [bytesFrom]
  | succ m ih => rw [Nat.succ_add m n, bytesFrom, bytesFrom, List.cons_append, ← ih, Nat.add_right_comm, Nat.add_assoc]

/-- A 16-bit reset value, held extended in the layout, has its own two bytes. -/
theorem byteAt_extended_half (v : Half) {k : Nat} (hk : k < 2) :
    byteAt (v.setWidth 32) k = v.extractLsb' (8 * k) 8 := by
  apply BitVec.eq_of_getLsbD_eq; intro i hi
  have h32 : 8 * k + i < 32 := by omega
  simp [byteAt, h32]

theorem half_bytes_extended (v : Half) :
    v.extractLsb' 0 8 = byteAt (v.setWidth 32) 0 ∧ v.extractLsb' 8 8 = byteAt (v.setWidth 32) 1 :=
  ⟨(byteAt_extended_half v Nat.zero_lt_two).symm, (byteAt_extended_half v Nat.one_lt_two).symm⟩

theorem resetImage_header : bytesFrom layout.rst 0x70 0x00 = printedImage.take 0x70 := by decide +kernel

/-- The part with the two capabilities holds the five OPEN values, which no evaluation can compare: their bytes are
written as the layout writes them first. -/
theorem resetImage_capabilities : bytesFrom layout.rst 0x20 0x70 = (printedImage.drop 0x70).take 0x20 := by
  simp only [printedImage, half_bytes_extended]
  rfl

theorem resetImage_rest : bytesFrom layout.rst 0x70 0x90 = (printedImage.drop 0x70).drop 0x20 := by decide +kernel

/-- The bytes after construction, as 10_state.md R66 prints them. -/
theorem resetImage_eq_printedImage : layout.resetImage = printedImage :=
  calc layout.resetImage
    _ = bytesFrom layout.rst 0x70 0x00 ++ (bytesFrom layout.rst 0x20 0x70 ++ bytesFrom layout.rst 0x70 0x90) := by
      rw [bytesFrom_append _ 0x20 0x70 0x70, bytesFrom_append _ 0x70 (0x20 + 0x70) 0x00]; rfl
    _ = printedImage := by
      rw [resetImage_header, resetImage_capabilities, resetImage_rest, List.take_append_drop, List.take_append_drop]

/-- Settles O10: this hardware's own image passes the integrity check, and is the printed one part by part. -/
theorem constructLeavesTheResetState : Obligations.ConstructLeavesTheResetState := by
  unfold Obligations.ConstructLeavesTheResetState
  intro s hs
  exact ⟨_, exec_construct_absent hs, rfl, rfl, rfl, allUnsized_get, resetImage_eq_printedImage⟩

/-! ### Bytes without a writable bit -/

/-- No write changes a byte that has no writable bit. -/
theorem rdByte_storeBytes_fixed {L : Layout} {x : Nat} (hm : L.wmask x = 0) (cfg : CfgBytes) (o : Nat)
    (bs : List Byte) : rdByte L (storeBytes L cfg o bs) x = rdByte L cfg x := by
  rw [rdByte_storeBytes]
  split
  · rw [hm, mergeByte_zero]
  · rfl

/-- No bit of VID, DID, REV, PI and SCC can be written (10_state.md R28, R29, R32 to R34). -/
theorem layout_identity_bytes_fixed {a : Nat} (ha : a < 0x04 ∨ (0x08 ≤ a ∧ a ≤ 0x0A)) : layout.wmask a = 0 := by
  have h : ∀ a < 0x0B, a < 0x04 ∨ (0x08 ≤ a ∧ a ≤ 0x0A) → layout.wmask a = 0 := by decide
  exact h a (by omega) ha

/-- Under the stored-value invariant their bytes are the ones those rules give. -/
theorem StoredBitsHold.identityBytes {cfg : CfgBytes} (h : StoredBitsHold layout cfg) :
    rdByte layout cfg 0x00 = 0x86 ∧ rdByte layout cfg 0x01 = 0x80 ∧ rdByte layout cfg 0x02 = 0x80 ∧
      rdByte layout cfg 0x03 = 0x8C ∧ rdByte layout cfg 0x08 = 0x00 ∧ rdByte layout cfg 0x09 = 0x01 ∧
      rdByte layout cfg 0x0A = 0x06 := by
  have hrst {a : Nat} (ha : a < 0x04 ∨ (0x08 ≤ a ∧ a ≤ 0x0A)) : rdByte layout cfg a = layout.rst a :=
    h.fixed (show a < 256 by omega) (layout_identity_bytes_fixed ha)
  exact ⟨hrst (by decide), hrst (by decide), hrst (by decide), hrst (by decide), hrst (by decide), hrst (by decide),
    hrst (by decide)⟩

/-! ### Reads of an operational instance, by the bytes it holds -/

theorem exec_cfgRd8_of_byte {s : State} (hs : s.life = .operational) (off : Half) {b : Byte}
    (hb : rdByte layout s.cfg off.toNat = b) : exec (.cfgRd8 off) s = .next { s with result := some (.data8 b) } := by
  subst hb
  exact gate_operational hs _

theorem exec_cfgRd16_of_bytes {s : State} (hs : s.life = .operational) (off : Half) {lo hi : Byte}
    (hlo : rdByte layout s.cfg off.toNat = lo) (hhi : rdByte layout s.cfg (off.toNat + 1) = hi) :
    exec (.cfgRd16 off) s = .next { s with result := some (.data16 (hi ++ lo)) } := by
  subst hlo hhi
  exact gate_operational hs _

/-- Settles O28: the invariant fixes every byte of these registers, as no bit of them can be written. -/
theorem identityRegistersAreConstant : Obligations.IdentityRegistersAreConstant := by
  unfold Obligations.IdentityRegistersAreConstant
  intro s hinv hs
  obtain ⟨h0, h1, h2, h3, h8, h9, hA⟩ := (hinv hs).stored.identityBytes
  refine ⟨⟨h0, h1, h2, h3⟩, exec_cfgRd16_of_bytes hs 0x00 h0 h1, exec_cfgRd16_of_bytes hs 0x02 h2 h3,
    exec_cfgRd8_of_byte hs 0x08 h8, exec_cfgRd8_of_byte hs 0x09 h9, exec_cfgRd8_of_byte hs 0x0A hA, fun w off v => ?_⟩
  have hwrite : exec (writeOp w off v) s = .next ((memWrite layout off.toNat (bytesOf w v) s).respond .done) := by
    rw [exec_writeOp, gate_operational hs]
  exact ⟨_, hwrite, fun a ha => rdByte_storeBytes_fixed (layout_identity_bytes_fixed ha) s.cfg off.toNat (bytesOf w v)⟩

end Sys2Proof.Machine
end

section
/-! PROOFS. O35, O38 and O40: what a write of a whole BAR register leaves in it, BARs of size zero, and the window of
the memory decode. -/

namespace Sys2Proof.Machine

/-! ### Writes and reads of a whole BAR register -/

theorem barOffset_toNat (i : Fin 6) : (barOffset i).toNat = (layout.bar i).offset := by revert i; decide

theorem exec_write_bar {s : State} (hs : s.life = .operational) (i : Fin 6) (v : Dword) :
    exec (.cfgWr32 (barOffset i) v) s =
      .next ((memWrite layout (layout.bar i).offset (bytesOf .dword v) s).respond .done) := by
  rw [cfgWr32_eq_writeOp, exec_writeOp, gate_operational hs, barOffset_toNat]

theorem exec_read_bar {s : State} (hs : s.life = .operational) (i : Fin 6) :
    exec (.cfgRd32 (barOffset i)) s = .next (s.respond (.data32 (barValue layout s.cfg i))) := by
  have hread := exec_readOp .dword (barOffset i) s
  rw [gate_operational hs, barOffset_toNat] at hread
  exact hread

/-- The register after a write of all its bytes, while its fixed bits are those of the constant (41_bar_logic.md
R158). -/
theorem BarCorresponds.barValue_whole {L : Layout} {s : State} {i : Fin 6} (h : BarCorresponds L s i)
    (hL : L.wellFormed = true) (hlen : s.cfg.length = L.cfgSize) (v : Dword) :
    barValue L (storeBytes L s.cfg (L.bar i).offset (bytesOf .dword v)) i =
      (v &&& L.wmask32 i) ||| (L.bar i).reset := by
  rw [Machine.barValue_whole hL hlen, h.fixedBits, BitVec.or_comm]

/-- Settles O35: the writable bits are those of the written value, the fixed bits the invariant's. -/
theorem misalignedBaseDropsTheLowBits : Obligations.MisalignedBaseDropsTheLowBits := by
  unfold Obligations.MisalignedBaseDropsTheLowBits
  intro s i a hinv hs
  obtain ⟨hlen, -, hbars⟩ := hinv hs
  have hvalue := (hbars i (layout_bar_size_ne_zero i)).barValue_whole layout_wellFormed hlen a
  refine ⟨_, exec_write_bar hs i a, rfl, ?_⟩
  rw [exec_read_bar, respond_cfg, memWrite_cfg, hvalue]
  · rfl
  · exact hs

/-! ### BARs of size zero -/

theorem byteAt_zero (k : Nat) : byteAt 0 k = 0 := BitVec.extractLsb'_zero

theorem wmask32_of_size_zero {L : Layout} {i : Fin 6} (hz : (L.bar i).size = 0) : L.wmask32 i = 0 := if_pos hz

theorem touchesBar_of_size_zero {L : Layout} {i : Fin 6} (hz : (L.bar i).size = 0) (o n : Nat) :
    ¬ touchesBar L i o n = true := fun h => ((touchesBar_iff L i o n).mp h).1 hz

theorem memWrite_barState_of_size_zero {L : Layout} {i : Fin 6} (hz : (L.bar i).size = 0) (s : State) (o : Nat)
    (bs : List Byte) : (memWrite L o bs s).barState[i] = s.barState[i] := by
  rw [memWrite_barState, barEffects_get, if_neg (touchesBar_of_size_zero hz o bs.length)]

/-- A mapped answer names a BAR that the address hits (41_bar_logic.md R161). -/
theorem barHits_of_mapped {L : Layout} {s : State} {sp : Space} {addr k : Dword} {i : Fin 6}
    (h : decodeAddress L s sp addr = .mapped i k) : barHits L s sp addr i = true := by
  rcases decodeAddress_cases L s sp addr with ⟨hnone, -⟩ | ⟨j, hj, -, hhit, -⟩
  · rw [hnone] at h; cases h
  · rw [hj] at h; cases h; exact hhit

theorem decodeAddress_ne_mapped_of_size_zero {L : Layout} {i : Fin 6} (hz : (L.bar i).size = 0) (s : State) (sp : Space)
    (addr k : Dword) : decodeAddress L s sp addr ≠ .mapped i k :=
  fun h => ((barHits_iff L s sp addr i).mp (barHits_of_mapped h)).1 hz

/-- A BAR of size zero has no writable bit, so its register is constant (41_bar_logic.md R155). -/
theorem barValue_storeBytes_of_size_zero {L : Layout} (hL : L.wellFormed = true) {i : Fin 6} (hz : (L.bar i).size = 0)
    (cfg : CfgBytes) (o : Nat) (bs : List Byte) : barValue L (storeBytes L cfg o bs) i = barValue L cfg i := by
  obtain ⟨-, hmask, -⟩ := Layout.bar_bytes hL i
  apply dword_ext
  intro j hj
  have hfixed : L.wmask ((L.bar i).offset + j) = 0 := by
    rw [hmask j hj, wmask32_of_size_zero hz, byteAt_zero]
  rw [byteAt_barValue L _ i hj, byteAt_barValue L _ i hj, rdByte_storeBytes_fixed hfixed]

/-- Settles O38: size zero empties the mask, and with it the touch test, the window and every byte's write mask. -/
theorem barOfSizeZeroTakesNoPart : Obligations.BarOfSizeZeroTakesNoPart := by
  unfold Obligations.BarOfSizeZeroTakesNoPart
  exact ⟨layout_bar_size_ne_zero, fun L i hz => ⟨wmask32_of_size_zero hz, fun _ => allUnsized_get i,
    memWrite_barState_of_size_zero hz, decodeAddress_ne_mapped_of_size_zero hz,
    fun hL => ⟨barValue_resetImage hL i, barValue_storeBytes_of_size_zero hL hz⟩⟩⟩

/-! ### The memory decode -/

theorem decodeEnable_mem (cfg : CfgBytes) : decodeEnable layout cfg .mem = (byteSeen cfg 0x04).getLsbD 1 := rfl

theorem decodeAddress_disabled {L : Layout} {s : State} {sp : Space} (h : decodeEnable L s.cfg sp = false)
    (addr : Dword) : decodeAddress L s sp addr = .notMapped := by
  rcases decodeAddress_cases L s sp addr with ⟨hnone, -⟩ | ⟨i, -, hen, -⟩
  · exact hnone
  · rw [h] at hen; cases hen

theorem decodeAddress_noHit {L : Layout} {s : State} {sp : Space} {addr : Dword}
    (h : ∀ i, ¬ barHits L s sp addr i = true) : decodeAddress L s sp addr = .notMapped := by
  rcases decodeAddress_cases L s sp addr with ⟨hnone, -⟩ | ⟨i, -, -, hhit, -⟩
  · exact hnone
  · exact absurd hhit (h i)

/-- Where no other BAR hits the address, the one that does answers. -/
theorem decodeAddress_onlyHit {L : Layout} {s : State} {sp : Space} {addr : Dword} {i : Fin 6}
    (hen : decodeEnable L s.cfg sp = true) (hi : barHits L s sp addr i = true)
    (honly : ∀ j, barHits L s sp addr j = true → j = i) :
    decodeAddress L s sp addr = .mapped i (addr - barBase L s.cfg i) := by
  rcases decodeAddress_cases L s sp addr with ⟨-, hoff | hmiss⟩ | ⟨j, hj, -, hhit, -⟩
  · rw [hen] at hoff; cases hoff
  · rw [hmiss i] at hi; cases hi
  · rw [hj, honly j hhit]

/-- BAR5 is the only memory BAR of this hardware, of 1024 bytes (10_state.md R43). -/
theorem barHits_mem_iff (s : State) (addr : Dword) (i : Fin 6) :
    barHits layout s .mem addr i = true ↔
      i = 5 ∧ s.barState[5] = .based ∧ (barBase layout s.cfg 5).toNat ≤ addr.toNat ∧
        addr.toNat < (barBase layout s.cfg 5).toNat + 1024 := by
  have hlast : i.val < 5 ↔ i ≠ 5 := by revert i; decide
  rw [barHits_layout_iff, InWindow]
  constructor
  · rintro ⟨hsp, hwindow⟩
    obtain rfl : i = 5 := by simpa [hlast] using hsp
    exact ⟨rfl, hwindow⟩
  · rintro ⟨rfl, hwindow⟩
    exact ⟨by decide, hwindow⟩

theorem barBase_ahci (cfg : CfgBytes) : barBase layout cfg 5 =
    (byteSeen cfg 0x2B ++ byteSeen cfg 0x2A ++ byteSeen cfg 0x29 ++ byteSeen cfg 0x28) &&& 0xFFFFFC00 := by
  have hmask : layout.wmask32 5 = 0xFFFFFC00 := by decide
  rw [barBase, hmask]
  rfl

theorem exec_barDecodeMem_operational {s : State} (hs : s.life = .operational) {addr : Dword} {r : Result}
    (hr : decodeAddress layout s .mem addr = r) : exec (.barDecodeMem addr) s = .next { s with result := some r } := by
  subst hr
  exact gate_operational hs _

/-- Settles O40: only BAR5 can hit a memory address, and it does in its window alone. -/
theorem memoryDecodeSeesOnlyTheAhciWindow : Obligations.MemoryDecodeSeesOnlyTheAhciWindow := by
  unfold Obligations.MemoryDecodeSeesOnlyTheAhciWindow
  intro s addr
  refine ⟨fun hs => exec_closed _ hs rfl, fun hs hen => ?_, fun hs hbar => ?_, fun hs hen hbar base hbase => ?_⟩
  · rw [← decodeEnable_mem] at hen
    exact exec_barDecodeMem_operational hs (decodeAddress_disabled hen addr)
  · refine exec_barDecodeMem_operational hs (decodeAddress_noHit fun i hhit => ?_)
    obtain ⟨-, hbased, -⟩ := (barHits_mem_iff s addr i).mp hhit
    exact hbar hbased
  · rw [← decodeEnable_mem] at hen
    rw [← barBase_ahci] at hbase
    subst hbase
    apply exec_barDecodeMem_operational hs
    split
    next hin =>
      exact decodeAddress_onlyHit hen ((barHits_mem_iff s addr 5).mpr ⟨rfl, hbar, hin⟩)
        fun j hj => ((barHits_mem_iff s addr j).mp hj).1
    next hout =>
      refine decodeAddress_noHit fun i hhit => ?_
      obtain ⟨-, -, hin⟩ := (barHits_mem_iff s addr i).mp hhit
      exact hout hin

end Sys2Proof.Machine
end

section
/-! PROOFS. O46: the capability chain as stored, and what the two chain queries answer from it. -/

namespace Sys2Proof.Machine

/-! ### The chain queries of an operational instance, by the walk of the bytes it holds -/

theorem exec_capWalk_of_walk {s : State} (hs : s.life = .operational) {ns : List Node}
    (hwalk : walk layout s.cfg = .ok ns) : exec .capWalk s = .next { s with result := some (.chain ns) } := by
  rw [exec_capWalk, gate_operational hs, walkResult, hwalk]
  rfl

theorem exec_capFind_of_find {s : State} (hs : s.life = .operational) {id : Byte} {ns : List Node} {n : Node}
    (hwalk : walk layout s.cfg = .ok ns) (hfind : ns.find? (fun m => m.id = id) = some n) :
    exec (.capFind id) s = .next { s with result := some (.found n) } := by
  rw [exec_capFind, gate_operational hs, findResult, hwalk]
  simp only [hfind]
  rfl

/-- The walk of this hardware's chain reports the MSI node, then the Power-Management node (42_capability_chain.md
R181, R188). -/
theorem StoredBitsHold.walk_reported {cfg : CfgBytes} (h : StoredBitsHold layout cfg) :
    Machine.walk layout cfg = .ok [Machine.msiNode cfg, Machine.pmNode cfg] := by
  obtain ⟨hmsi, hpm⟩ := h.reportedNodes
  rw [h.walk, hmsi, hpm]

/-- Settles O46: the invariant fixes the control bytes, so the walk reports the two nodes, and the first has ID 0x05. -/
theorem chainOfThisHardwareAsStored : Obligations.ChainOfThisHardwareAsStored := by
  unfold Obligations.ChainOfThisHardwareAsStored
  intro s hinv hs
  have hstored : StoredBitsHold layout s.cfg := (hinv hs).stored
  obtain ⟨h34, h80, h81, h70, h71, hA8, hA9⟩ := hstored.controlBytes
  have hwalk := exec_capWalk_of_walk hs hstored.walk_reported
  have hfirst : [msiNode s.cfg, pmNode s.cfg].find? (fun n => n.id = 0x05) = some (msiNode s.cfg) := rfl
  have hfind := exec_capFind_of_find hs hstored.walk_reported hfirst
  exact ⟨h34, ⟨h80, h81⟩, ⟨h70, h71⟩, ⟨hA8, hA9⟩, msiNode s.cfg, pmNode s.cfg, hwalk, hfind, rfl, rfl, rfl, rfl, rfl⟩

end Sys2Proof.Machine
end

section
/-! PROOFS. O15, O19 and O25: the instance that a failed integrity check leaves, what a write leaves in every byte, and
the bytes of an access beyond the extent. -/

namespace Sys2Proof.Machine

/-! ### The Failed instance -/

theorem isLifecycle_eq_false {i : Instr} (hc : i ≠ .construct) (ht : i ≠ .teardown) : isLifecycle i = false := by
  cases i with
  | construct => exact absurd rfl hc
  | teardown => exact absurd rfl ht
  | _ => rfl

/-- A Failed instance refuses every operation except TEARDOWN (60_exceptions.md R209). -/
theorem execWith_failed (L : Layout) (i : Instr) {s : State} (hs : s.life = .failed) (hi : i ≠ .teardown) :
    ∃ q, execWith L i s = .next (s.refuse q) := by
  by_cases hc : i = .construct
  · subst hc
    exact ⟨_, execWith_construct_refused L (by simp [hs])⟩
  · exact ⟨_, execWith_closed L i (by simp [hs]) (isLifecycle_eq_false hc hi)⟩

/-- Settles O15: the check runs on the layout's own image, so it raises the same reason at every construction. -/
theorem failedIntegrityCheckAbortsConstruction : Obligations.FailedIntegrityCheckAbortsConstruction := by
  unfold Obligations.FailedIntegrityCheckAbortsConstruction
  intro L s r hs hcheck
  have hleaves : (s.takeIntegrityFault L r).life ≠ .absent := by simp
  exact ⟨_, execWith_construct_fault hs hcheck, rfl, rfl, rfl, fun i hi => execWith_failed L i rfl hi,
    _, execWith_teardown L hleaves, rfl, rfl, _, execWith_construct_fault rfl hcheck, rfl, rfl⟩

/-! ### The bytes after a write -/

theorem exec_writeOp_operational {s : State} (hs : s.life = .operational) (w : Width) (off : Half) (v : Dword) :
    exec (writeOp w off v) s = .next ((memWrite layout off.toNat (bytesOf w v) s).respond .done) := by
  rw [exec_writeOp, gate_operational hs]

/-- Settles O19: every byte of the extent is kept, or merged with the byte of the written value at its place. -/
theorem writesMergeUnderTheWriteMask : Obligations.WritesMergeUnderTheWriteMask := by
  unfold Obligations.WritesMergeUnderTheWriteMask
  intro s w off v hs hlen
  refine ⟨_, exec_writeOp_operational hs w off v, rfl, rfl, rfl, (storeBytes_length ..).trans hlen, fun a ha => ?_⟩
  have hbyte := rdByte_storeBytes_inside layout (bytesOf w v) hlen off.toNat ha
  rw [bytesOf_length] at hbyte
  refine hbyte.trans ?_
  split
  next hcov => rw [bytesOf_getD w v (by omega)]; rfl
  next => rfl

/-! ### Beyond the extent -/

/-- The store loop sees only the written bytes inside the extent (20_memory.md R76). -/
theorem storeBytes_congr (L : Layout) (cfg : CfgBytes) {o : Nat} {bs bs' : List Byte} (hlen : bs.length = bs'.length)
    (h : ∀ k < bs.length, o + k < L.cfgSize → bs.getD k 0 = bs'.getD k 0) :
    storeBytes L cfg o bs = storeBytes L cfg o bs' := by
  refine cfg_ext (by rw [storeBytes_length, storeBytes_length]) fun x => ?_
  rw [storeBytes_getD, storeBytes_getD, ← hlen]
  split
  next hx => rw [h (x - o) (by omega) (by omega)]
  next => rfl

/-- A BAR lies inside the extent, so its candidate takes no other written byte either. -/
theorem candidate_congr {L : Layout} (hL : L.wellFormed = true) (i : Fin 6) (old : CfgBytes) {o : Nat}
    {bs bs' : List Byte} (hlen : bs.length = bs'.length)
    (h : ∀ k < bs.length, o + k < L.cfgSize → bs.getD k 0 = bs'.getD k 0) :
    candidate L i o bs old = candidate L i o bs' old := by
  obtain ⟨hoff, -, -⟩ := Layout.bar_bytes hL i
  apply dword_ext
  intro j hj
  rw [byteAt_candidate L i o bs old hj, byteAt_candidate L i o bs' old hj, candidateByte, candidateByte, ← hlen]
  split
  next hcov => rw [h ((L.bar i).offset + j - o) (by omega) (by omega)]
  next => rfl

theorem barState_ext {bars bars' : Vector BarState 6} (h : ∀ i : Fin 6, bars[i] = bars'[i]) : bars = bars' :=
  Vector.ext fun i hi => h ⟨i, hi⟩

/-- Writes whose bytes agree inside the extent have the same effect (60_exceptions.md R202). -/
theorem memWrite_congr {L : Layout} (hL : L.wellFormed = true) (s : State) {o : Nat} {bs bs' : List Byte}
    (hlen : bs.length = bs'.length) (h : ∀ k < bs.length, o + k < L.cfgSize → bs.getD k 0 = bs'.getD k 0) :
    memWrite L o bs s = memWrite L o bs' s := by
  have hbars : barEffects L o bs s.cfg s.barState = barEffects L o bs' s.cfg s.barState :=
    barState_ext fun i => by rw [barEffects_get, barEffects_get, candidate_congr hL i s.cfg hlen h, hlen]
  rw [memWrite, memWrite, storeBytes_congr L s.cfg hlen h, hbars]

/-- A write wholly beyond the extent has no effect (60_exceptions.md R202). -/
theorem memWrite_beyond {L : Layout} (hL : L.wellFormed = true) (s : State) {o : Nat} (ho : L.cfgSize ≤ o)
    (bs : List Byte) : memWrite L o bs s = s := by
  have huntouched (i : Fin 6) : ¬ touchesBar L i o bs.length = true := by
    obtain ⟨hoff, -, -⟩ := Layout.bar_bytes hL i
    rw [touchesBar_iff]
    omega
  have hbars : barEffects L o bs s.cfg s.barState = s.barState :=
    barState_ext fun i => by rw [barEffects_get, if_neg (huntouched i)]
  rw [memWrite, storeBytes_beyond L s.cfg ho, hbars]

/-- Settles O25: the read primitive gives zero beyond the extent, and neither the store loop nor a BAR's candidate
takes a written byte from there. -/
theorem bytesBeyondTheExtentAreAbsorbed : Obligations.BytesBeyondTheExtentAreAbsorbed := by
  unfold Obligations.BytesBeyondTheExtentAreAbsorbed
  intro s w off v hs
  have hread : exec (readOp w off) s = .next (s.respond (dataResult w (memRead32 layout s.cfg off.toNat))) := by
    rw [exec_readOp, gate_operational hs]
  refine ⟨⟨_, hread, fun k hk hbeyond => ?_⟩, ⟨_, exec_writeOp_operational hs w off v, rfl⟩, fun v' hagree => ?_,
    fun hbeyond => ?_⟩
  · have hk4 : k < 4 := hk.trans_le (width_bytes_le w)
    rw [byteAt_memRead32 layout s.cfg off.toNat hk4, rdByte_beyond layout s.cfg hbeyond]
  · have hsame : memWrite layout off.toNat (bytesOf w v) s = memWrite layout off.toNat (bytesOf w v') s := by
      refine memWrite_congr layout_wellFormed s (by simp) fun k hk hin => ?_
      rw [bytesOf_length] at hk
      rw [bytesOf_getD w v hk, bytesOf_getD w v' hk, hagree k hk hin]
    rw [exec_writeOp_operational hs, exec_writeOp_operational hs, hsame]
  · rw [exec_writeOp_operational hs, memWrite_beyond layout_wellFormed s hbeyond]
    rfl

end Sys2Proof.Machine
end

section
/-! PROOFS. O27: what can change a byte of configuration space. -/

namespace Sys2Proof.Machine

/-- The store loop changes only bytes that it covers and that have a writable bit (40_config_access.md R133, step 1). -/
theorem covered_writable_of_storeBytes_ne {L : Layout} {cfg : CfgBytes} {o x : Nat} {bs : List Byte}
    (h : rdByte L (storeBytes L cfg o bs) x ≠ rdByte L cfg x) : o ≤ x ∧ x < o + bs.length ∧ L.wmask x ≠ 0 := by
  obtain ⟨hlo, hhi⟩ : o ≤ x ∧ x < o + bs.length := by
    by_contra hout
    exact h (rdByte_storeBytes_uncovered L bs cfg hout)
  exact ⟨hlo, hhi, fun hzero => h (rdByte_storeBytes_fixed hzero cfg o bs)⟩

/-- CONSTRUCT stores the reset byte at every offset (70_reset_and_hazards.md R231), which 10_state.md R66 prints. -/
theorem byteSeen_resetImage {a : Nat} (ha : a < 256) :
    byteSeen layout.resetImage a = layout.rst a ∧ layout.rst a = printedImage.getD a 0 := by
  have hstored : rdByte layout layout.resetImage a = layout.rst a := rdByte_resetImage layout ha
  refine ⟨hstored, ?_⟩
  rw [← hstored, rdByte_inside layout _ ha, resetImage_eq_printedImage]

/-- Settles O27: of the ways an operation ends, an answer keeps every byte, a TEARDOWN leaves no instance, and the
store loop of a write changes only covered bytes with a writable bit. -/
theorem onlyConstructionAndWritesStoreBytes : Obligations.OnlyConstructionAndWritesStoreBytes := by
  unfold Obligations.OnlyConstructionAndWritesStoreBytes
  refine ⟨fun s hs => ⟨_, exec_construct_absent hs, resetImage_length layout, fun a ha => byteSeen_resetImage ha⟩,
    fun i s t hexec hlife a _ hchanged => ?_⟩
  rcases exec_cases i s with ⟨r, hend⟩ | ⟨w, off, v, hi, -, hend⟩ | ⟨hi, hs, -⟩ | ⟨-, -, hend⟩
  · rw [hend] at hexec; cases hexec
    exact absurd rfl hchanged
  · rw [hend] at hexec; cases hexec
    rw [byteSeen_eq_rdByte, byteSeen_eq_rdByte, respond_cfg, memWrite_cfg] at hchanged
    obtain ⟨hlo, hhi, hmask⟩ := covered_writable_of_storeBytes_ne hchanged
    rw [bytesOf_length] at hhi
    exact .inr ⟨w, off, v, hi, hlo, hhi, hmask⟩
  · exact .inl ⟨hi, hs⟩
  · rw [hend] at hexec; cases hexec
    cases hlife

end Sys2Proof.Machine
end

section
/-! PROOFS. O1 to O5: the encoder and the decoder. An operation uses a fixed set of bits of its request word, the same
for every operand; what it takes from a word is what the word holds in these bits. -/

namespace Sys2Proof

/-! ### The round trip -/

/-- The encoder's word decodes to the operation and is zero in every bit the operation does not use (30_encoding.md
R100 to R104). -/
theorem roundTrip (i : Instr) : Laws.RoundTrip.Statement i :=
  match i with
  | .cfgRd8 off => Laws.RoundTrip.cfgRd8 off
  | .cfgRd16 off => Laws.RoundTrip.cfgRd16 off
  | .cfgRd32 off => Laws.RoundTrip.cfgRd32 off
  | .cfgWr8 off dat => Laws.RoundTrip.cfgWr8 off dat
  | .cfgWr16 off dat => Laws.RoundTrip.cfgWr16 off dat
  | .cfgWr32 off dat => Laws.RoundTrip.cfgWr32 off dat
  | .barDecodeMem addr => Laws.RoundTrip.barDecodeMem addr
  | .barDecodeIo addr => Laws.RoundTrip.barDecodeIo addr
  | .capWalk => Laws.RoundTrip.capWalk
  | .capFind id => Laws.RoundTrip.capFind id
  | .construct => Laws.RoundTrip.construct
  | .teardown => Laws.RoundTrip.teardown

theorem decode_encode (i : Instr) : decode (encode i) = .op i := (roundTrip i).1

theorem encode_injective {i j : Instr} (h : encode i = encode j) : i = j := by
  have hdecoded : Decoded.op i = .op j := by rw [← decode_encode i, h, decode_encode j]
  injection hdecoded

/-- Settles O1, one operation at a time. -/
theorem everyOperationDecodesFromItsEncoding : Obligations.EveryOperationDecodesFromItsEncoding := by
  unfold Obligations.EveryOperationDecodesFromItsEncoding
  exact decode_encode

/-! ### The bits an operation uses -/

theorem opField_and (w m : Request) : opField (w &&& m) = opField w &&& opField m := BitVec.extractLsb'_and

theorem offField_and (w m : Request) : offField (w &&& m) = offField w &&& offField m := BitVec.extractLsb'_and

theorem datField_and (w m : Request) : datField (w &&& m) = datField w &&& datField m := BitVec.extractLsb'_and

/-- A word whose field `rsv` is zero is packed from its other fields (30_encoding.md R100). -/
theorem packRequest_fields {w : Request} (h : w.extractLsb' 48 8 = 0) :
    packRequest (opField w) (offField w) (datField w) = w := by
  conv_rhs => rw [request_fields w, h]
  rfl

/-- The bits of the request word that the operation of a row uses. -/
def Opcode.usedBits (c : Opcode) : Request := (c.operation 0 0).usedBits

/-- They are the same for all operands (30_encoding.md R101, R103). -/
theorem usedBits_operation (c : Opcode) (off : Half) (dat : Dword) : (c.operation off dat).usedBits = c.usedBits := by
  cases c <;> rfl

/-- Every operation uses all of `op` and nothing of `rsv` (30_encoding.md R100, R101). -/
theorem usedBits_op_rsv (c : Opcode) : opField c.usedBits = 0xFF ∧ c.usedBits.extractLsb' 48 8 = 0 := by
  cases c <;> decide

theorem and_of_allOnes {n : Nat} {m : BitVec n} (h : m = BitVec.allOnes n) (v : BitVec n) : v &&& m = v := by
  rw [h, BitVec.and_allOnes]

theorem and_of_zero {n : Nat} {m : BitVec n} (h : m = 0) (v : BitVec n) : v &&& m = 0 := by
  subst h; exact BitVec.and_zero

/-- The 8-bit and 16-bit operands in `dat` are its low bits, written extended with zeros (30_encoding.md R103). -/
theorem low_bits_extended {n : Nat} {m : Dword} (hm : ∀ j < 32, m.getLsbD j = decide (j < n)) (dat : Dword) :
    (dat.setWidth n).setWidth 32 = dat &&& m := by
  apply BitVec.eq_of_getLsbD_eq; intro j hj
  rw [BitVec.getLsbD_setWidth, BitVec.getLsbD_setWidth, BitVec.getLsbD_and, hm j hj]
  by_cases hn : j < n <;> simp [hn, hj]

/-- What an assembler writes into the fields for an assembled operation: the fields it was assembled from, in the bits
it uses (30_encoding.md R102 to R104). -/
theorem operation_fields (c : Opcode) (off : Half) (dat : Dword) :
    (c.operation off dat).opcode = c ∧ (c.operation off dat).off = off &&& offField c.usedBits ∧
      (c.operation off dat).dat = dat &&& datField c.usedBits := by
  refine ⟨by cases c <;> rfl, ?_, ?_⟩
  · cases c with
    | cfgRd8 | cfgRd16 | cfgRd32 | cfgWr8 | cfgWr16 | cfgWr32 => exact (and_of_allOnes (by decide) off).symm
    | barDecodeMem | barDecodeIo | capWalk | capFind | construct | teardown =>
      exact (and_of_zero (by decide) off).symm
  · cases c with
    | cfgWr8 | capFind => exact low_bits_extended (n := 8) (by decide) dat
    | cfgWr16 => exact low_bits_extended (n := 16) (by decide) dat
    | cfgWr32 | barDecodeMem | barDecodeIo => exact (and_of_allOnes (by decide) dat).symm
    | cfgRd8 | cfgRd16 | cfgRd32 | capWalk | construct | teardown => exact (and_of_zero (by decide) dat).symm

/-- A word that decodes is its operation's encoding in the bits that take part. -/
theorem encode_of_decode {w : Request} {i : Instr} (h : decode w = .op i) : encode i = w &&& i.usedBits := by
  obtain ⟨c, hcode, rfl⟩ := decode_op_iff.mp h
  obtain ⟨hopcode, hoff, hdat⟩ := operation_fields c (offField w) (datField w)
  obtain ⟨hopBits, hrsvBits⟩ := usedBits_op_rsv c
  have hop : opField (w &&& c.usedBits) = opField w := by rw [opField_and, and_of_allOnes hopBits]
  have hrsv : (w &&& c.usedBits).extractLsb' 48 8 = 0 := by rw [BitVec.extractLsb'_and, and_of_zero hrsvBits]
  rw [usedBits_operation, ← packRequest_fields hrsv, hop, offField_and, datField_and, encode, hopcode, hoff, hdat,
    Opcode.code_of_ofCode hcode]

/-- Settles O4: the encoder writes every used bit as the word has it. -/
theorem decodedWordReencodes : Obligations.DecodedWordReencodes := by
  unfold Obligations.DecodedWordReencodes
  exact fun _ _ => encode_of_decode

/-- Words with the same operation code decode alike up to the operands. -/
theorem decode_of_same_code {w w' : Request} {i : Instr} (h : decode w = .op i) (hop : opField w' = opField w) :
    ∃ j, decode w' = .op j ∧ j.usedBits = i.usedBits := by
  obtain ⟨c, hcode, rfl⟩ := decode_op_iff.mp h
  exact ⟨_, decode_op_iff.mpr ⟨c, by rw [hop, hcode], rfl⟩, by rw [usedBits_operation, usedBits_operation]⟩

/-- Words that agree in the bits an operation uses have the same operation code. -/
theorem opField_of_agree {w w' : Request} {i : Instr} (h : decode w = .op i)
    (hagree : w &&& i.usedBits = w' &&& i.usedBits) : opField w' = opField w := by
  obtain ⟨c, -, rfl⟩ := decode_op_iff.mp h
  have hfields := congrArg opField hagree
  have hopBits := (usedBits_op_rsv c).1
  rw [usedBits_operation, opField_and, opField_and, and_of_allOnes hopBits, and_of_allOnes hopBits] at hfields
  exact hfields.symm

/-- Settles O2: a word that agrees in the used bits has the same operation code, and its operation the same encoding. -/
theorem ignoredFieldsTakeNoPart : Obligations.IgnoredFieldsTakeNoPart := by
  unfold Obligations.IgnoredFieldsTakeNoPart
  refine ⟨fun w w' i hdec hagree => ?_, fun i => (roundTrip i).2⟩
  obtain ⟨j, hdec', hused⟩ := decode_of_same_code hdec (opField_of_agree hdec hagree)
  have hsame : encode j = encode i := by rw [encode_of_decode hdec', encode_of_decode hdec, hused, hagree]
  rw [hdec', encode_injective hsame]

/-! ### The table of operation codes -/

theorem ofCode_eq_none_iff (b : Byte) : Opcode.ofCode b = none ↔ b ∉ Opcode.all.map Opcode.code := by
  simp [Opcode.ofCode]

/-- Settles O5: each word of 95_test_vectors.md is evaluated. -/
theorem wordsOfTheSpecDecode : Obligations.WordsOfTheSpecDecode := by
  unfold Obligations.WordsOfTheSpecDecode
  decide

end Sys2Proof

namespace Sys2Proof.Machine

/-- A request that decodes is performed on the state without it (00_scope.md R13). -/
theorem performNext_of_decode_op {run : Instr → State → StepOutcome} {s : State} {w : Request} {rest : List Request}
    {i : Instr} (hr : s.requests = w :: rest) (hd : decode w = .op i) :
    performNext run s = run i { s with requests := rest } := by
  simp only [performNext, hr, hd]

/-- An illegal request is refused (30_encoding.md R105, R112). -/
theorem performNext_of_decode_illegal {run : Instr → State → StepOutcome} {s : State} {w : Request}
    {rest : List Request} (hr : s.requests = w :: rest) (hd : decode w = .illegal) :
    performNext run s = .next ({ s with requests := rest }.refuse .illegalOp) := by
  simp only [performNext, hr, hd]

theorem step_of_decode_op {s : State} {w : Request} {rest : List Request} {i : Instr} (hr : s.requests = w :: rest)
    (hd : decode w = .op i) : step s = exec i { s with requests := rest } := performNext_of_decode_op hr hd

theorem step_of_decode_illegal {s : State} {w : Request} {rest : List Request} (hr : s.requests = w :: rest)
    (hd : decode w = .illegal) : step s = .next ({ s with requests := rest }.refuse .illegalOp) :=
  performNext_of_decode_illegal hr hd

/-- Settles O3: the twelve codes are those of the decoder's table. -/
theorem illegalExactlyOutsideTheTable : Obligations.IllegalExactlyOutsideTheTable := by
  unfold Obligations.IllegalExactlyOutsideTheTable
  exact ⟨fun w => decode_illegal_iff.trans (ofCode_eq_none_iff (opField w)),
    fun s w rest hr hd => step_of_decode_illegal hr hd⟩

end Sys2Proof.Machine
end

section
/-! PROOFS. O6 to O9, O11 to O14, O17, O49, O51 and O53: what a step and an operation answer, the lifecycle, and what
cannot be observed of a block without an instance. -/

namespace Sys2Proof.Machine

/-! ### The machine at its layout -/

theorem exec_eq : exec = execWith layout := funext fun i => funext fun s => exec_eq_execWith i s

theorem step_eq_stepWith (s : State) : step s = stepWith layout s := by rw [step, stepWith, exec_eq]

/-- Settles O51: the two dispatches agree arm by arm, and a step is the same use of either. -/
theorem thisHardwareIsTheMachineAtItsLayout : Obligations.ThisHardwareIsTheMachineAtItsLayout := by
  unfold Obligations.ThisHardwareIsTheMachineAtItsLayout
  exact ⟨exec_eq_execWith, step_eq_stepWith, rfl⟩

/-! ### Every request is answered -/

/-- What the host places is the request word itself (00_scope.md R13). -/
theorem requestOfTable_toNat (w : Request) : requestOfTable 64 w.toNat = w := by
  rw [requestOfTable, Nat.mod_eq_of_lt w.isLt, BitVec.ofNat_toNat, BitVec.setWidth_eq]

/-- Settles O6: what the encoder writes decodes, and `withFetchWord` puts it first. -/
theorem stepPerformsTheNextRequest : Obligations.StepPerformsTheNextRequest := by
  unfold Obligations.StepPerformsTheNextRequest
  refine ⟨fun s w rest i hr hd => step_of_decode_op hr hd, fun s rest i hr => step_of_decode_op hr (decode_encode i),
    fun s i => step_of_decode_op (rest := s.requests) ?_ (decode_encode i)⟩
  rw [withFetchWord_requests, requestOfTable_toNat]

/-- Every operation of every layout gives a next state with the requests kept and a result; only the two lifecycle
operations change `life` (10_state.md R62; 20_memory.md R79). -/
theorem execWith_answers (L : Layout) (i : Instr) (s : State) :
    ∃ t r, execWith L i s = .next t ∧ t.requests = s.requests ∧ t.result = some r ∧
      (t.life ≠ s.life → i = .construct ∨ i = .teardown) := by
  rcases execWith_cases L i s with
    ⟨r, hend⟩ | ⟨w, off, v, -, -, hend⟩ | ⟨hi, -, -, hend⟩ | ⟨r, hi, -, -, hend⟩ | ⟨hi, -, hend⟩
  · exact ⟨_, _, hend, rfl, rfl, fun hlife => absurd rfl hlife⟩
  · exact ⟨_, _, hend, rfl, rfl, fun hlife => absurd rfl hlife⟩
  · exact ⟨_, _, hend, rfl, rfl, fun _ => .inl hi⟩
  · exact ⟨_, _, hend, rfl, rfl, fun _ => .inl hi⟩
  · exact ⟨_, _, hend, rfl, rfl, fun _ => .inr hi⟩

theorem decodeAddress_ne_fault (L : Layout) (s : State) (sp : Space) (addr : Dword) (f : IntegrityReason) :
    decodeAddress L s sp addr ≠ .fault f := by
  rcases decodeAddress_cases L s sp addr with ⟨hnone, -⟩ | ⟨i, hmapped, -⟩
  · rw [hnone]; exact nofun
  · rw [hmapped]; exact nofun

/-- An operation behind the gate answers the fault only if its own result is the fault. -/
theorem gate_ne_fault {s t : State} {r : Result} {f : IntegrityReason} (h : gate s (.next (s.respond r)) = .next t)
    (hr : r ≠ .fault f) : t.result ≠ some (.fault f) := by
  rcases gate_next h with ⟨-, rfl⟩ | ⟨-, rfl⟩
  · rw [respond_result]; exact fun he => hr (Option.some.inj he)
  · exact nofun

/-- Only CONSTRUCT and the two chain queries answer the layout integrity fault (60_exceptions.md R201, R205). -/
theorem execWith_fault_source {L : Layout} {i : Instr} {s t : State} {f : IntegrityReason}
    (h : execWith L i s = .next t) (hf : t.result = some (.fault f)) :
    i = .construct ∨ i = .capWalk ∨ ∃ id, i = .capFind id := by
  have hread (w : Width) (off : Half) : execWith L (readOp w off) s ≠ .next t := fun h => by
    rw [execWith_readOp] at h
    exact gate_ne_fault h (by cases w <;> exact nofun) hf
  have hdecode (sp : Space) (addr : Dword) : execWith L (decodeOp sp addr) s ≠ .next t := fun h => by
    rw [execWith_decodeOp] at h
    exact gate_ne_fault h (decodeAddress_ne_fault L s sp addr f) hf
  have hwrite (w : Width) (off : Half) (v : Dword) : execWith L (writeOp w off v) s ≠ .next t := fun h => by
    rw [execWith_writeOp] at h
    rcases gate_next h with ⟨-, rfl⟩ | ⟨-, rfl⟩ <;> cases hf
  cases i with
  | cfgRd8 off => exact absurd h (hread .byte off)
  | cfgRd16 off => exact absurd h (hread .word off)
  | cfgRd32 off => exact absurd h (hread .dword off)
  | cfgWr8 off dat => rw [cfgWr8_eq_writeOp] at h; exact absurd h (hwrite _ _ _)
  | cfgWr16 off dat => rw [cfgWr16_eq_writeOp] at h; exact absurd h (hwrite _ _ _)
  | cfgWr32 off dat => exact absurd h (hwrite .dword off dat)
  | barDecodeMem addr => exact absurd h (hdecode .mem addr)
  | barDecodeIo addr => exact absurd h (hdecode .io addr)
  | capWalk => exact .inr (.inl rfl)
  | capFind id => exact .inr (.inr ⟨id, rfl⟩)
  | construct => exact .inl rfl
  | teardown =>
    by_cases hs : s.life = .absent
    · rw [execWith_teardown_absent L hs] at h; cases h; cases hf
    · rw [execWith_teardown L hs] at h; cases h; cases hf

/-- Settles O53: an illegal request is refused with nothing else changed, and an operation is performed on the state
without the request. -/
theorem anyLayoutAnswersEveryRequest : Obligations.AnyLayoutAnswersEveryRequest := by
  unfold Obligations.AnyLayoutAnswersEveryRequest
  intro L s w rest hr
  cases hd : decode w with
  | illegal =>
    exact ⟨_, _, performNext_of_decode_illegal hr hd, rfl, rfl, fun hlife => absurd rfl hlife, nofun⟩
  | op i =>
    obtain ⟨t, r, hend, hreq, hres, hlife⟩ := execWith_answers L i { s with requests := rest }
    refine ⟨t, r, (performNext_of_decode_op hr hd).trans hend, hreq, hres, fun hne => ?_, fun f hf => ?_⟩
    · exact (hlife hne).imp (congrArg Decoded.op) (congrArg Decoded.op)
    · rcases execWith_fault_source hend (hf ▸ hres) with hi | hi | ⟨id, hi⟩
      · exact .inl (congrArg Decoded.op hi)
      · exact .inr (.inl (congrArg Decoded.op hi))
      · exact .inr (.inr ⟨id, congrArg Decoded.op hi⟩)

/-- Settles O7: what every layout's machine does, at this hardware's. -/
theorem stepAnswersEveryRequest : Obligations.StepAnswersEveryRequest := by
  unfold Obligations.StepAnswersEveryRequest
  intro s w rest hr
  obtain ⟨t, r, hstep, hreq, hres, -⟩ := anyLayoutAnswersEveryRequest layout s w rest hr
  exact ⟨t, r, (step_eq_stepWith s).trans hstep, hreq, hres⟩

theorem step_of_no_request {s : State} (hr : s.requests = []) : step s = .refused .noRequest := by
  simp only [step, performNext, hr]

/-- Settles O8: with a request present there is a next state. -/
theorem stepStopsOnlyWithoutARequest : Obligations.StepStopsOnlyWithoutARequest := by
  unfold Obligations.StepStopsOnlyWithoutARequest
  intro s
  refine ⟨step_of_no_request, ?_⟩
  cases hr : s.requests with
  | nil =>
    rw [step_of_no_request hr]
    exact ⟨fun q hq => by cases hq; exact ⟨rfl, rfl⟩, nofun⟩
  | cons w rest =>
    obtain ⟨t, r, hstep, -⟩ := stepAnswersEveryRequest s w rest hr
    rw [hstep]
    exact ⟨nofun, nofun⟩

/-! ### Lifecycle -/

/-- Settles O9: the ten operations are behind the gate. -/
theorem gateRefusesWithoutAnInstance : Obligations.GateRefusesWithoutAnInstance := by
  unfold Obligations.GateRefusesWithoutAnInstance
  exact fun s i hs hc ht => exec_closed i hs (isLifecycle_eq_false hc ht)

/-- Settles O11: CONSTRUCT is performed from Absent only. -/
theorem secondConstructIsRefused : Obligations.SecondConstructIsRefused := by
  unfold Obligations.SecondConstructIsRefused
  exact fun s hs => exec_construct_refused hs

/-- Settles O12: TEARDOWN leaves an Absent block, and CONSTRUCT of one stores the reset image whatever it held. -/
theorem teardownDestroysTheInstance : Obligations.TeardownDestroysTheInstance := by
  unfold Obligations.TeardownDestroysTheInstance
  exact ⟨fun s hs => exec_teardown_absent hs,
    fun s hs => ⟨_, exec_teardown hs, rfl, rfl, rfl, exec_construct_absent rfl⟩⟩

/-- Settles O14, by the ways an operation ends. -/
theorem onlyLifecycleOperationsChangeLife : Obligations.OnlyLifecycleOperationsChangeLife := by
  unfold Obligations.OnlyLifecycleOperationsChangeLife
  intro i s t hexec hlife
  rcases exec_cases i s with ⟨r, hend⟩ | ⟨w, off, v, -, -, hend⟩ | ⟨hi, hs, hend⟩ | ⟨hi, -, hend⟩ <;>
    (rw [hend] at hexec; cases hexec)
  · exact absurd rfl hlife
  · exact absurd rfl hlife
  · exact .inl ⟨hi, hs, rfl⟩
  · exact .inr ⟨hi, rfl⟩

/-! ### What a block without an instance holds -/

/-- With an operational instance, two states that are one block are equal. -/
theorem SameBlock.eq_of_operational {s s' : State} (h : SameBlock s s') (hs : s.life = .operational) : s = s' := by
  obtain ⟨hlife, hreq, hres, hheld⟩ := h
  obtain ⟨hcfg, hbar⟩ := hheld hs
  cases s; cases s'
  cases hlife; cases hreq; cases hres; cases hcfg; cases hbar
  rfl

theorem SameBlock.life_eq {s s' : State} (h : SameBlock s s') : s.life = s'.life := h.1

theorem SameBlock.requests_eq {s s' : State} (h : SameBlock s s') : s.requests = s'.requests := h.2.1

theorem SameBlock.refl (s : State) : SameBlock s s := ⟨rfl, rfl, rfl, fun _ => ⟨rfl, rfl⟩⟩

/-- The same answer to two states that are one block without an instance. -/
theorem SameBlock.respond {s s' : State} (h : SameBlock s s') (hs : s.life ≠ .operational) (r : Result) :
    SameBlock (s.respond r) (s'.respond r) :=
  ⟨h.life_eq, h.requests_eq, rfl, fun hop => absurd hop hs⟩

/-- Operations do not tell apart two states that are one block: CONSTRUCT and TEARDOWN write the contents, all others
are refused without an instance (10_state.md R62). -/
theorem SameBlock.exec {s s' : State} (h : SameBlock s s') (i : Instr) :
    ∃ t t', Machine.exec i s = .next t ∧ Machine.exec i s' = .next t' ∧ SameBlock t t' := by
  have hlife := h.life_eq
  have hreq := h.requests_eq
  by_cases hop : s.life = .operational
  · obtain rfl := h.eq_of_operational hop
    obtain ⟨t, -, hend, -⟩ := execWith_answers layout i s
    rw [← exec_eq_execWith] at hend
    exact ⟨t, t, hend, hend, .refl t⟩
  have hop' : s'.life ≠ .operational := hlife ▸ hop
  cases hi : isLifecycle i with
  | false => exact ⟨_, _, exec_closed i hop hi, exec_closed i hop' hi, h.respond hop _⟩
  | true =>
    by_cases habs : s.life = .absent
    · have habs' : s'.life = .absent := hlife ▸ habs
      cases i with
      | construct =>
        exact ⟨_, _, exec_construct_absent habs, exec_construct_absent habs', rfl, hreq, rfl,
          fun _ => ⟨rfl, rfl⟩⟩
      | teardown => exact ⟨_, _, exec_teardown_absent habs, exec_teardown_absent habs', h.respond hop _⟩
      | _ => cases hi
    · have habs' : s'.life ≠ .absent := hlife ▸ habs
      cases i with
      | construct => exact ⟨_, _, exec_construct_refused habs, exec_construct_refused habs', h.respond hop _⟩
      | teardown => exact ⟨_, _, exec_teardown habs, exec_teardown habs', rfl, hreq, rfl, fun _ => ⟨rfl, rfl⟩⟩
      | _ => cases hi

/-- Taking the next request leaves one block one block. -/
theorem SameBlock.withRequests {s s' : State} (h : SameBlock s s') (rest : List Request) :
    SameBlock { s with requests := rest } { s' with requests := rest } := by
  obtain ⟨hlife, -, hres, hheld⟩ := h
  exact ⟨hlife, rfl, hres, hheld⟩

/-- An illegal request changes the result only. -/
theorem SameBlock.refuse {s s' : State} (h : SameBlock s s') (q : RefuseReason) :
    SameBlock (s.refuse q) (s'.refuse q) := by
  obtain ⟨hlife, hreq, -, hheld⟩ := h
  exact ⟨hlife, hreq, rfl, hheld⟩

/-- Settles O13: both states present the same request, which is refused as illegal by both or performed alike. -/
theorem contentsWithoutAnInstanceAreUnobservable : Obligations.ContentsWithoutAnInstanceAreUnobservable := by
  unfold Obligations.ContentsWithoutAnInstanceAreUnobservable
  intro s s' h
  have hreq := h.requests_eq
  cases hr : s.requests with
  | nil =>
    rw [step_of_no_request hr, step_of_no_request (hreq ▸ hr)]
    exact ⟨nofun, fun r hr => hr⟩
  | cons w rest =>
    cases hd : decode w with
    | illegal =>
      rw [step_of_decode_illegal hr hd, step_of_decode_illegal (hreq ▸ hr) hd]
      exact ⟨fun t ht => by cases ht; exact ⟨_, rfl, (h.withRequests rest).refuse .illegalOp⟩, nofun⟩
    | op i =>
      obtain ⟨u, u', hend, hend', hsame⟩ := (h.withRequests rest).exec i
      rw [step_of_decode_op hr hd, step_of_decode_op (hreq ▸ hr) hd, hend, hend']
      exact ⟨fun t ht => by cases ht; exact ⟨u', rfl, hsame⟩, nofun⟩

/-! ### Queries -/

theorem isLifecycle_of_isQuery {i : Instr} (h : isQuery i = true) : isLifecycle i = false := by
  cases i with
  | construct | teardown => cases h
  | _ => rfl

/-- Settles O49: a query is neither a lifecycle operation nor a write, so it answers with the block unchanged. -/
theorem queriesChangeNothing : Obligations.QueriesChangeNothing := by
  unfold Obligations.QueriesChangeNothing
  intro s i hs hquery
  rcases exec_operational i hs (isLifecycle_of_isQuery hquery) with hans | ⟨w, off, v, rfl, -⟩
  · exact hans
  · cases w <;> cases hquery

/-! ### This hardware's layout is sound -/

/-- Under the stored-value invariant neither chain query raises (42_capability_chain.md R188). -/
theorem StoredBitsHold.chain_results_ne_fault {cfg : CfgBytes} (h : StoredBitsHold layout cfg) (f : IntegrityReason) :
    walkResult layout cfg ≠ .fault f ∧ ∀ id, findResult layout cfg id ≠ .fault f := by
  refine ⟨by rw [walkResult, h.walk]; exact nofun, fun id => ?_⟩
  rw [findResult, h.walk]
  dsimp only
  split <;> exact nofun

/-- No operation of this hardware makes an instance Failed or answers the fault. -/
theorem exec_sound {i : Instr} {s t : State} (hinv : s.Inv layout) (hs : s.life ≠ .failed) (h : exec i s = .next t) :
    t.life ≠ .failed ∧ ∀ r, t.result ≠ some (.fault r) := by
  refine ⟨fun hlife => ?_, fun r hr => ?_⟩
  · have hchanged : t.life ≠ s.life := fun he => hs (he ▸ hlife)
    rcases onlyLifecycleOperationsChangeLife i s t h hchanged with ⟨-, -, hop⟩ | ⟨-, habs⟩
    · rw [hlife] at hop; cases hop
    · rw [hlife] at habs; cases habs
  · have hchain {q : Result} (hg : gate s (.next (s.respond q)) = .next t)
        (hq : StoredBitsHold layout s.cfg → q ≠ .fault r) : False := by
      by_cases hop : s.life = .operational
      · exact gate_ne_fault hg (hq (hinv hop).stored) hr
      · rw [gate_closed hop] at hg; cases hg; cases hr
    rcases execWith_fault_source ((exec_eq_execWith i s).symm.trans h) hr with rfl | rfl | ⟨id, rfl⟩
    · by_cases habs : s.life = .absent
      · rw [exec_construct_absent habs] at h; cases h; cases hr
      · rw [exec_construct_refused habs] at h; cases h; cases hr
    · exact hchain h fun hstored => (hstored.chain_results_ne_fault r).1
    · exact hchain h fun hstored => (hstored.chain_results_ne_fault r).2 id

/-- Settles O17: a step performs an operation on the same instance, or refuses an illegal request. -/
theorem thisHardwareNeverFaults : Obligations.ThisHardwareNeverFaults := by
  unfold Obligations.ThisHardwareNeverFaults
  intro s t hinv hs hstep
  rcases step_cases s with ⟨-, hnone⟩ | ⟨w, rest, -, ⟨i, -, hop⟩ | ⟨-, hill⟩⟩
  · rw [hnone] at hstep; cases hstep
  · exact exec_sound (s := { s with requests := rest }) (hinv.congr rfl rfl rfl) hs (hop.symm.trans hstep)
  · rw [hill] at hstep; cases hstep
    exact ⟨hs, nofun⟩

end Sys2Proof.Machine
end

section
/-! PROOFS. O16, O45, O47 and O48: the walk of the capability chain, its bound, the integrity check and the two chain
queries. -/

namespace Sys2Proof.Machine

/-! ### The bound -/

/-- The walk raises exactly when its visits do: only null nodes are taken out. -/
theorem walk_error_iff (L : Layout) (cfg : CfgBytes) (r : IntegrityReason) :
    walk L cfg = .error r ↔ visits L cfg = .error r := by
  rw [walk]
  cases visits L cfg <;> simp [Except.map]

/-- Settles O48: the visits end within the bound with a zero pointer, or raise with every pointer non-zero. -/
theorem walkIsBounded : Obligations.WalkIsBounded := by
  unfold Obligations.WalkIsBounded
  refine ⟨fun L cfg => ?_, rfl, rfl⟩
  rw [walk_error_iff]
  rcases visitsFrom_cases L cfg L.maxHops (rdByte L cfg 0x34) with ⟨vs, hok, hlen, hzero⟩ | ⟨herr, hnonzero⟩
  · have hvisits : visits L cfg = .ok vs := hok
    rw [hvisits]
    exact ⟨.inl ⟨vs, rfl, hlen⟩, nofun, fun hall => absurd hzero (hall vs.length hlen)⟩
  · have hvisits : visits L cfg = .error .hopLimit := herr
    rw [hvisits]
    exact ⟨.inr rfl, fun _ => hnonzero, fun _ => rfl⟩

/-! ### The integrity check -/

theorem chainOk_of_walk_error {L : Layout} {cfg : CfgBytes} {r : IntegrityReason} (h : walk L cfg = .error r) :
    chainOk L cfg = .error r := by rw [chainOk, h]

/-- Where the walk returns, the check compares its bases and IDs with the configured ones (42_capability_chain.md
R187). -/
theorem chainOk_of_walk_ok {L : Layout} {cfg : CfgBytes} {ns : List Node} (h : walk L cfg = .ok ns) :
    chainOk L cfg =
      if (ns.map fun n => (n.base.toNat, n.id)).isPerm (configuredSet L) then .ok () else .error .wrongSet := by
  rw [chainOk, h]

theorem isPerm_configuredSet_iff (L : Layout) (l : List (Nat × Byte)) :
    l.isPerm (configuredSet L) = true ↔
      l = [(L.msiBase, L.msiId), (L.pmBase, L.pmId)] ∨ l = [(L.pmBase, L.pmId), (L.msiBase, L.msiId)] := by
  rw [List.isPerm_iff, configuredSet, List.perm_pair]

/-- Settles O16, by what the walk answers. -/
theorem integrityCheckAcceptsTheConfiguredSet : Obligations.IntegrityCheckAcceptsTheConfiguredSet := by
  unfold Obligations.IntegrityCheckAcceptsTheConfiguredSet
  intro L cfg
  dsimp only
  cases hwalk : walk L cfg with
  | error r =>
    rw [chainOk_of_walk_error hwalk]
    cases r <;> simp
  | ok ns =>
    rw [chainOk_of_walk_ok hwalk]
    simp only [Except.ok.injEq, exists_eq_left', ← isPerm_configuredSet_iff]
    split <;> simp [*]

/-! ### The chain queries of this hardware -/

theorem exec_capFind_absent {s : State} (hs : s.life = .operational) {id : Byte} {ns : List Node}
    (hwalk : walk layout s.cfg = .ok ns) (hfind : ns.find? (fun m => m.id = id) = none) :
    exec (.capFind id) s = .next { s with result := some .absent } := by
  rw [exec_capFind, gate_operational hs, findResult, hwalk]
  simp only [hfind]
  rfl

/-- Settles O45: the invariant fixes the bytes a walk reads for control. -/
theorem walkReportsMsiThenPm : Obligations.WalkReportsMsiThenPm := by
  unfold Obligations.WalkReportsMsiThenPm
  refine ⟨?_, fun s hinv hs => ?_⟩
  · obtain ⟨h34, h80, h81, h70, h71, hA8, hA9⟩ := layout_chain_bytes_fixed
    simp [h34, h80, h81, h70, h71, hA8, hA9]
  · have hstored : StoredBitsHold layout s.cfg := (hinv hs).stored
    exact ⟨⟨_, hstored.visits, rfl⟩, exec_capWalk_of_walk hs hstored.walk_reported⟩

/-- Settles O47: the two reported nodes have the IDs 0x05 and 0x01. -/
theorem findReturnsTheNodeWithTheId : Obligations.FindReturnsTheNodeWithTheId := by
  unfold Obligations.FindReturnsTheNodeWithTheId
  intro s hinv hs
  have hwalk := (hinv hs).stored.walk_reported
  refine ⟨exec_capFind_of_find hs hwalk rfl, exec_capFind_of_find hs hwalk rfl,
    fun id h5 h1 => exec_capFind_absent hs hwalk ?_⟩
  rw [List.find?_cons_of_neg, List.find?_cons_of_neg, List.find?_nil]
  · exact fun he => h1 (of_decide_eq_true he).symm
  · exact fun he => h5 (of_decide_eq_true he).symm

end Sys2Proof.Machine
end

section
/-! PROOFS. O23, O24, O29 to O33 and O52: the printed layout, the invariants of a run, and what they say of the bytes
that cannot be written. -/

namespace Sys2Proof.Machine

/-! ### The invariant -/

/-- Taking a request, performed or refused, keeps the invariant of a well-formed layout. -/
theorem stepWith_inv {L : Layout} (hL : L.wellFormed = true) {s t : State} (h : s.Inv L) (ht : stepWith L s = .next t) :
    t.Inv L := by
  rcases performNext_cases (execWith L) s with ⟨-, hnone⟩ | ⟨w, rest, -, ⟨i, -, hop⟩ | ⟨-, hill⟩⟩
  · rw [stepWith, hnone] at ht; cases ht
  · have htaken : ({ s with requests := rest } : State).Inv L := h.congr rfl rfl rfl
    exact execWith_inv hL htaken (hop.symm.trans ht)
  · rw [stepWith, hill] at ht; cases ht
    exact h.congr rfl rfl rfl

/-- Settles O52: before the first step there is no instance, and each operation keeps the invariant. -/
theorem everyStepOfAnyLayoutKeepsTheInvariant : Obligations.EveryStepOfAnyLayoutKeepsTheInvariant := by
  unfold Obligations.EveryStepOfAnyLayoutKeepsTheInvariant
  exact fun L hL => ⟨.ofClosed (by simp), fun s t hinv ht => stepWith_inv hL hinv ht⟩

theorem step_inv {s t : State} (h : s.Inv layout) (ht : step s = .next t) : t.Inv layout :=
  stepWith_inv layout_wellFormed h ((step_eq_stepWith s).symm.trans ht)

theorem exec_inv {i : Instr} {s t : State} (h : s.Inv layout) (ht : exec i s = .next t) : t.Inv layout :=
  execWith_inv layout_wellFormed h ((exec_eq_execWith i s).symm.trans ht)

/-- The register tells Sizing from Based (41_bar_logic.md R159). -/
theorem BarCorresponds.barState_unique {L : Layout} {s s' : State} {i : Fin 6} (h : BarCorresponds L s i)
    (h' : BarCorresponds L s' i) (hv : barValue L s.cfg i = barValue L s'.cfg i)
    (hu : s.barState[i] = .unsized ↔ s'.barState[i] = .unsized) : s.barState[i] = s'.barState[i] := by
  cases hst : s.barState[i] with
  | unsized => exact (hu.mp hst).symm
  | sizing =>
    cases hst' : s'.barState[i] with
    | unsized => rw [hu.mpr hst'] at hst; cases hst
    | sizing => rfl
    | based => exact absurd (hv.symm.trans (h.sizing hst)) (h'.based hst')
  | based =>
    cases hst' : s'.barState[i] with
    | unsized => rw [hu.mpr hst'] at hst; cases hst
    | sizing => exact absurd (hv.trans (h'.sizing hst')) (h.based hst)
    | based => rfl

/-- Settles O31: the step keeps the invariant, and the invariant lets the register tell the states apart. -/
theorem barStateAndRegisterCorrespond : Obligations.BarStateAndRegisterCorrespond := by
  unfold Obligations.BarStateAndRegisterCorrespond
  refine ⟨fun s t hinv ht => step_inv hinv ht, fun s s' i hinv hinv' hs hs' hv hu => ?_⟩
  have hsize := layout_bar_size_ne_zero i
  exact ((hinv hs).bars i hsize).barState_unique ((hinv' hs').bars i hsize) hv hu

/-- The stored-value invariant alone is kept by every operation: a write keeps it, CONSTRUCT establishes it
(10_state.md R26). -/
theorem exec_storedBits {i : Instr} {s t : State} (h : s.life = .operational → StoredBitsHold layout s.cfg)
    (ht : exec i s = .next t) : t.life = .operational → StoredBitsHold layout t.cfg := by
  rcases exec_cases i s with ⟨r, hend⟩ | ⟨w, off, v, -, hs, hend⟩ | ⟨-, -, hend⟩ | ⟨-, -, hend⟩ <;>
    (rw [hend] at ht; cases ht)
  · exact h
  · exact fun _ => storeBytes_storedBits layout s.cfg off.toNat (bytesOf w v) (h hs)
  · exact fun _ => resetImage_storedBits layout
  · exact nofun

/-- Settles O30: before the first step there is no instance, and a step is an operation or a refusal. -/
theorem storedBitsAreKept : Obligations.StoredBitsAreKept := by
  unfold Obligations.StoredBitsAreKept
  refine ⟨nofun, fun s t h ht => ?_⟩
  rcases step_cases s with ⟨-, hnone⟩ | ⟨w, rest, -, ⟨i, -, hop⟩ | ⟨-, hill⟩⟩
  · rw [hnone] at ht; cases ht
  · exact exec_storedBits (s := { s with requests := rest }) h (hop.symm.trans ht)
  · rw [hill] at ht; cases ht
    exact h

/-- Settles O32: the invariant speaks of an operational instance, and a fresh one meets it. -/
theorem resetAndConstructMeetTheInvariant : Obligations.ResetAndConstructMeetTheInvariant := by
  unfold Obligations.ResetAndConstructMeetTheInvariant
  exact ⟨.ofClosed (by simp), _, exec_construct_absent reset_life, rfl, initialise_inv layout_wellFormed rfl rfl⟩

/-! ### The printed layout -/

/-- The masks of the table, byte by byte, are those of the column "wmask" (10_state.md R25). -/
theorem layout_wmask_printed : ∀ o < 256, layout.wmask o = printedMask o := by decide +kernel

/-- Settles O29: the table row by row, its masks and reset bytes by offset, and the checks evaluated. -/
theorem layoutIsThePrintedFieldMap : Obligations.LayoutIsThePrintedFieldMap := by
  unfold Obligations.LayoutIsThePrintedFieldMap
  have hcap : layout.capPtr = 0x80 ∧ layout.pmNext = 0xA8 ∧ layout.msiNext = 0x70 := by decide
  obtain ⟨hptr, hpm, hmsi⟩ := hcap
  exact ⟨rfl, rfl, rfl, rfl, rfl, rfl, rfl, rfl, ⟨hptr, rfl, rfl, hpm, rfl, rfl, hmsi⟩, ⟨rfl, rfl, rfl, rfl⟩,
    fun o ho => ⟨layout_wmask_printed o ho, (byteSeen_resetImage ho).2⟩, layout_wellFormed, by decide⟩

/-- Settles O33: six masks, evaluated. -/
theorem sizeMaskOfEveryBar : Obligations.SizeMaskOfEveryBar := by
  unfold Obligations.SizeMaskOfEveryBar
  decide

/-! ### Bytes that cannot be written -/

theorem run_of_next {M : Host.Core} {n : Nat} {s u : M.State} (h : M.step s = .next u) :
    M.run (n + 1) s = M.run n u := by rw [run_succ, h]

theorem run_of_refused {M : Host.Core} {n : Nat} {s : M.State} {r : M.Refusal} (h : M.step s = .refused r) :
    M.run (n + 1) s = .refused r := by rw [run_succ, h]

/-- A run keeps the invariant, by its steps. -/
theorem run_inv {n : Nat} {s t : State} (h : s.Inv layout) (ht : Host.Core.run core n s = .next t) : t.Inv layout := by
  induction n generalizing s with
  | zero => cases ht; exact h
  | succ n ih =>
    cases hstep : step s with
    | next u => exact ih (step_inv h hstep) ((run_of_next (M := core) hstep).symm.trans ht)
    | fault r => cases r
    | refused r => exact nomatch (run_of_refused (M := core) (n := n) hstep).symm.trans ht

theorem layout_fields_pairwise : layout.fields.Pairwise fun f g => f.disjoint g = true := by
  obtain ⟨-, hdis, -⟩ := Layout.wellFormed_parts layout_wellFormed
  simpa [Layout.fieldsDisjoint] using hdis

/-- A field without a writable bit has no byte with one: in a table without overlaps the byte's mask is the field's. -/
theorem wmask_of_readOnly_field {f : Field} (hf : f ∈ layout.fields) (hmask : f.wmask = 0) {o : Nat}
    (ho : f.covers o = true) : layout.wmask o = 0 := by
  have hfound : layout.fieldAt o = some f := find_covering_field layout_fields_pairwise hf ho
  rw [Layout.wmask, hfound]
  simp only [hmask, byteAt_zero]

theorem wmask_of_reserved {L : Layout} {o : Nat} (h : L.fieldAt o = none) : L.wmask o = 0 := by rw [Layout.wmask, h]

theorem rst_of_reserved {L : Layout} {o : Nat} (h : L.fieldAt o = none) : L.rst o = 0 := by rw [Layout.rst, h]

/-- Settles O23: the stored-value invariant at the end of the run, and the masks of the table. -/
theorem readOnlyBytesKeepTheirResetValue : Obligations.ReadOnlyBytesKeepTheirResetValue := by
  unfold Obligations.ReadOnlyBytesKeepTheirResetValue
  refine ⟨fun n s t hinv hrun ht o ho hmask => (run_inv hinv hrun ht).stored.fixed ho hmask,
    fun f hf hname o _ hcov => wmask_of_readOnly_field hf ?_ hcov, fun o _ => wmask_of_reserved⟩
  have hmasks : ∀ g ∈ layout.fields, g.name ∈ ([.VID, .DID, .STS, .REV, .PI, .SCC, .BCC, .CAPPTR, .INTPN, .PM_ID,
      .PM_NEXT, .PMC, .MSI_ID, .MSI_NEXT] : List FieldName) → g.wmask = 0 := by decide
  exact hmasks f hf hname

/-- No field of the table covers a reserved offset (40_config_access.md R142). -/
theorem fieldAt_reserved {o : Nat} (ho : o < 256) (h : ReservedOffset o) : layout.fieldAt o = none := by
  have hall : ∀ a < 256, ReservedOffset a → (layout.fieldAt a).isNone = true := by
    unfold ReservedOffset
    decide +kernel
  exact Option.isNone_iff_eq_none.mp (hall o ho h)

/-- Settles O24: a reserved byte holds the reset value 0x00 under the invariant, and beyond the extent nothing is
stored. -/
theorem reservedOffsetsReadZero : Obligations.ReservedOffsetsReadZero := by
  unfold Obligations.ReservedOffsetsReadZero
  intro s off hinv hs hres
  refine exec_cfgRd8_of_byte hs off ?_
  by_cases hin : off.toNat < 256
  · have hnone := fieldAt_reserved hin hres
    rw [(hinv hs).stored.fixed hin (wmask_of_reserved hnone), rst_of_reserved hnone]
  · exact rdByte_beyond layout s.cfg (Nat.not_lt.mp hin)

end Sys2Proof.Machine
end

section
/-! PROOFS. O39, O41 to O43, O54 and O57: what a decode query answers, from the windows of the BARs. -/

namespace Sys2Proof.Machine

/-! ### Decode queries -/

/-- The enable bit of a space, by its place in the Command register (41_bar_logic.md R160). -/
theorem decodeEnable_eq_getLsbD (L : Layout) (cfg : CfgBytes) (sp : Space) :
    decodeEnable L cfg sp = (rdByte L cfg 0x04).getLsbD (if sp = .io then 0 else 1) := by cases sp <;> rfl

/-- A decode query of an operational instance answers what the decode function gives, and changes nothing else. -/
theorem execWith_decodeOp_iff {L : Layout} {s : State} (hs : s.life = .operational) (sp : Space) (addr : Dword)
    (r : Result) :
    execWith L (decodeOp sp addr) s = .next { s with result := some r } ↔ decodeAddress L s sp addr = r := by
  rw [execWith_decodeOp, gate_operational hs]
  constructor
  · intro h; injection h with h
    exact Option.some.inj (congrArg State.result h)
  · rintro rfl; rfl

theorem exec_decodeOp_iff {s : State} (hs : s.life = .operational) (sp : Space) (addr : Dword) (r : Result) :
    exec (decodeOp sp addr) s = .next { s with result := some r } ↔ decodeAddress layout s sp addr = r := by
  rw [exec_eq_execWith, execWith_decodeOp_iff hs]

/-- Where the enable is on and some BAR hits the address, a BAR that hits it answers (41_bar_logic.md R161). -/
theorem decodeAddress_mapped {L : Layout} {s : State} {sp : Space} {addr : Dword}
    (hen : decodeEnable L s.cfg sp = true) (hsome : ∃ i, barHits L s sp addr i = true) :
    ∃ i, decodeAddress L s sp addr = .mapped i (addr - barBase L s.cfg i) ∧ barHits L s sp addr i = true := by
  rcases decodeAddress_cases L s sp addr with ⟨-, hoff | hmiss⟩ | ⟨i, hi, -, hhit, -⟩
  · rw [hen] at hoff; cases hoff
  · obtain ⟨i, hhit⟩ := hsome
    rw [hmiss i] at hhit; cases hhit
  · exact ⟨i, hi, hhit⟩

/-- Where the enable is on, the lowest BAR that the address hits answers (41_bar_logic.md R161). -/
theorem decodeAddress_lowest {L : Layout} {s : State} {sp : Space} {addr : Dword} {i : Fin 6}
    (hen : decodeEnable L s.cfg sp = true) (hi : barHits L s sp addr i = true)
    (hlow : ∀ j < i, ¬ barHits L s sp addr j = true) :
    decodeAddress L s sp addr = .mapped i (addr - barBase L s.cfg i) := by
  rcases decodeAddress_cases L s sp addr with ⟨-, hoff | hmiss⟩ | ⟨j, hj, -, hhit, hlowj⟩
  · rw [hen] at hoff; cases hoff
  · rw [hmiss i] at hi; cases hi
  · rcases lt_trichotomy i j with hij | rfl | hji
    · rw [hlowj i hij] at hi; cases hi
    · exact hj
    · exact absurd hhit (hlow j hji)

/-- The offset of an answer, counted from the base, is the address (41_bar_logic.md R161). -/
theorem base_add_offset {base addr : Dword} (h : base.toNat ≤ addr.toNat) :
    base.toNat + (addr - base).toNat = addr.toNat := by
  rw [BitVec.toNat_sub_of_le (BitVec.le_def.mpr h)]
  omega

/-- A BAR that is not Based is no answer. -/
theorem exec_decodeOp_ne_mapped {s : State} (hs : s.life = .operational) {i : Fin 6} (hi : s.barState[i] ≠ .based)
    (sp : Space) (addr k : Dword) : exec (decodeOp sp addr) s ≠ .next { s with result := some (.mapped i k) } := by
  intro h
  obtain ⟨-, -, hbased, -⟩ := (barHits_iff ..).mp (barHits_of_mapped ((exec_decodeOp_iff hs sp addr _).mp h))
  exact hi hbased

/-! ### The answers from the windows -/

/-- Settles O39: a hit is an address in a window. -/
theorem decodeAnswersFromTheWindows : Obligations.DecodeAnswersFromTheWindows := by
  unfold Obligations.DecodeAnswersFromTheWindows
  intro s sp addr hs
  refine ⟨_, (exec_decodeOp_iff hs sp addr _).mpr rfl, fun hoff => ?_, fun hnone => ?_, fun hon hsome => ?_⟩
  · exact decodeAddress_disabled ((decodeEnable_eq_getLsbD layout s.cfg sp).trans hoff) addr
  · exact decodeAddress_noHit fun i hi => hnone i ((barHits_layout_iff s sp addr i).mp hi)
  · have hen := (decodeEnable_eq_getLsbD layout s.cfg sp).trans hon
    obtain ⟨i, hi, hhit⟩ := decodeAddress_mapped hen (hsome.imp fun i => (barHits_layout_iff s sp addr i).mpr)
    have hwin := (barHits_layout_iff s sp addr i).mp hhit
    have ⟨_, _, hlo, hhi⟩ := hwin
    have hsum := base_add_offset hlo
    exact ⟨i, _, hi, hwin, hsum, by omega⟩

/-- Settles O41: the decode function takes the lowest BAR that the address hits. -/
theorem overlapGoesToTheLowestIndex : Obligations.OverlapGoesToTheLowestIndex := by
  unfold Obligations.OverlapGoesToTheLowestIndex
  intro s sp addr i hs hon hwin hlow
  exact (exec_decodeOp_iff hs sp addr _).mpr <|
    decodeAddress_lowest ((decodeEnable_eq_getLsbD layout s.cfg sp).trans hon)
      ((barHits_layout_iff s sp addr i).mpr hwin) fun j hj hhit => hlow j hj ((barHits_layout_iff s sp addr j).mp hhit)

/-- In a well-formed layout, which has no 64-bit BAR, the space of a BAR is given by whether it is an I/O BAR
(41_bar_logic.md R161). -/
theorem Layout.spaceOf_bar_iff {L : Layout} (hL : L.wellFormed = true) (i : Fin 6) (sp : Space) :
    spaceOf (L.bar i).kind = some sp ↔ ((L.bar i).kind = .io ↔ sp = .io) := by
  obtain ⟨-, -, -, -, hno, -⟩ := Layout.wellFormed_parts hL
  rw [Layout.noMem64, List.all_eq_true] at hno
  have hkind : (L.bar i).kind ≠ .mem64 := of_decide_eq_true (hno (L.bar i) (by simp [Layout.bar]))
  cases hk : (L.bar i).kind with
  | mem64 => exact absurd hk hkind
  | io => cases sp <;> decide
  | mem32 => cases sp <;> decide

/-- Settles O57: the decode function's condition on a BAR is that its window holds the address. -/
theorem decodeOfAnyLayout : Obligations.DecodeOfAnyLayout := by
  unfold Obligations.DecodeOfAnyLayout
  intro L s sp addr hL hs inWindow
  have hhit (i : Fin 6) : barHits L s sp addr i = true ↔ inWindow i := by
    rw [barHits_iff, Layout.spaceOf_bar_iff hL]
  refine ⟨_, (execWith_decodeOp_iff hs sp addr _).mpr rfl, fun hoff => ?_, fun hon => ⟨fun hnone => ?_, ?_⟩⟩
  · exact decodeAddress_disabled ((decodeEnable_eq_getLsbD L s.cfg sp).trans hoff) addr
  · exact decodeAddress_noHit fun i hi => hnone i ((hhit i).mp hi)
  · intro i hwin hlow
    have hen := (decodeEnable_eq_getLsbD L s.cfg sp).trans hon
    have ⟨_, _, _, hlo, _⟩ := hwin
    have hmapped := decodeAddress_lowest hen ((hhit i).mpr hwin) fun j hj hhitj => hlow j hj ((hhit j).mp hhitj)
    exact ⟨_, hmapped, base_add_offset hlo⟩

/-! ### After construction -/

/-- While every BAR is Unsized nothing is mapped (70_reset_and_hazards.md R232). -/
theorem decodeAddress_of_unsized {L : Layout} {s : State} (h : ∀ i : Fin 6, s.barState[i] = .unsized) (sp : Space)
    (addr : Dword) : decodeAddress L s sp addr = .notMapped := by
  refine decodeAddress_noHit fun i hi => ?_
  obtain ⟨-, -, hbased, -⟩ := (barHits_iff ..).mp hi
  rw [h i] at hbased; cases hbased

/-- Settles O54: CONSTRUCT stores the reset image and sets every BAR Unsized. -/
theorem constructionOfAnyLayout : Obligations.ConstructionOfAnyLayout := by
  unfold Obligations.ConstructionOfAnyLayout
  intro L s hs hcheck
  refine ⟨_, execWith_construct_ok hs hcheck, rfl, rfl, rfl, allUnsized_get, resetImage_length L, fun o ho => ?_,
    fun sp addr => (execWith_decodeOp_iff rfl sp addr _).mpr (decodeAddress_of_unsized allUnsized_get sp addr)⟩
  rw [respond_cfg, ← rdByte_resetImage L ho, rdByte_inside L _ ho]
  rfl

/-- Settles O42: the same of this hardware, whose Command register is constructed as zero. -/
theorem nothingIsMappedAfterConstruct : Obligations.NothingIsMappedAfterConstruct := by
  unfold Obligations.NothingIsMappedAfterConstruct
  intro s t hs hexec
  rw [exec_construct_absent hs] at hexec; cases hexec
  have hcommand : byteSeen layout.resetImage 0x04 = 0 := (byteSeen_resetImage (by decide)).1.trans (by decide)
  refine ⟨allUnsized_get, ?_, ?_,
    fun sp addr => (exec_decodeOp_iff rfl sp addr _).mpr (decodeAddress_of_unsized allUnsized_get sp addr)⟩
  · rw [respond_cfg]; exact congrArg (·.getLsbD 0) hcommand
  · rw [respond_cfg]; exact congrArg (·.getLsbD 1) hcommand

/-! ### Windows -/

/-- A multiple of `2^k` below `2^32` and other than the top-most one leaves room for two sizes. -/
theorem multiple_not_topmost {k b : Nat} (hk : k ≤ 31) (hdvd : 2 ^ k ∣ b) (hlt : b < 2 ^ 32)
    (hne : b ≠ 2 ^ 32 - 2 ^ k) : b + 2 * 2 ^ k ≤ 2 ^ 32 := by
  obtain ⟨q, rfl⟩ := hdvd
  obtain ⟨n, hn⟩ : 2 ^ k ∣ 2 ^ 32 := Nat.pow_dvd_pow 2 (by omega)
  rw [hn] at hlt hne ⊢
  have hq : q < n := lt_of_mul_lt_mul_left hlt (Nat.zero_le _)
  have hq' : q + 1 ≠ n := fun h => hne (by rw [← h, Nat.mul_succ, Nat.add_sub_cancel])
  calc 2 ^ k * q + 2 * 2 ^ k
    _ = 2 ^ k * (q + 2) := by ring
    _ ≤ 2 ^ k * n := Nat.mul_le_mul_left _ (by omega)

/-- The base of a BAR in use is a multiple of its size (41_bar_logic.md R157). -/
theorem size_dvd_barBase {L : Layout} (hL : L.wellFormed = true) {i : Fin 6} (hz : (L.bar i).size ≠ 0)
    (cfg : CfgBytes) : (L.bar i).size ∣ (barBase L cfg i).toNat := by
  obtain ⟨k, hk, -, hsize, hmask, -⟩ := Layout.bar_power hL hz
  rw [barBase, hmask, and_sizeBits_toNat _ hk, hsize]
  exact Nat.dvd_mul_left ..

/-- The base of a Based BAR is not the top-most one, whose write is a sizing write (41_bar_logic.md R153, R157). -/
theorem BarCorresponds.base_ne_mask {L : Layout} {s : State} {i : Fin 6} (h : BarCorresponds L s i)
    (hb : s.barState[i] = .based) : barBase L s.cfg i ≠ L.wmask32 i := by
  intro he
  apply h.based hb
  rw [Layout.sizeMask, ← split_by_mask (barValue L s.cfg i) (L.wmask32 i), h.fixedBits, BitVec.or_comm]
  exact congrArg (· ||| (L.bar i).reset) he

/-- The window of a Based BAR ends at least one size below the top of the address space (20_memory.md R81). -/
theorem BarCorresponds.window_fits {L : Layout} (hL : L.wellFormed = true) {s : State} {i : Fin 6}
    (hz : (L.bar i).size ≠ 0) (h : BarCorresponds L s i) (hb : s.barState[i] = .based) :
    (barBase L s.cfg i).toNat + 2 * (L.bar i).size ≤ 2 ^ 32 := by
  obtain ⟨k, hk, -, hsize, hmask, -⟩ := Layout.bar_power hL hz
  have hdvd := size_dvd_barBase hL hz s.cfg
  rw [hsize] at hdvd ⊢
  refine multiple_not_topmost hk hdvd (barBase L s.cfg i).isLt fun he => h.base_ne_mask hb ?_
  rw [hmask, ← he, BitVec.ofNat_toNat, BitVec.setWidth_eq]

/-- Settles O43: a base is rounded down to the size, and the top-most one would leave the BAR Sizing. -/
theorem windowsAreAlignedAndDoNotWrap : Obligations.WindowsAreAlignedAndDoNotWrap := by
  unfold Obligations.WindowsAreAlignedAndDoNotWrap
  intro s i hinv hs
  have hz := layout_bar_size_ne_zero i
  exact ⟨fun hb => ⟨rfl, size_dvd_barBase layout_wellFormed hz s.cfg,
    ((hinv hs).bars i hz).window_fits layout_wellFormed hz hb⟩, fun hb => exec_decodeOp_ne_mapped hs hb⟩

end Sys2Proof.Machine
end

section
/-! PROOFS. O18, O20 to O22, O26, O37, O44, O50 and O55: configuration reads and writes, byte by byte, and the side
effects of a write. -/

namespace Sys2Proof.Machine

/-! ### Reads -/

/-- Settles O18: the read primitive as a number, at each width. -/
theorem readsReturnTheStoredBytes : Obligations.ReadsReturnTheStoredBytes := by
  unfold Obligations.ReadsReturnTheStoredBytes
  intro s off hs
  exact ⟨exec_cfgRd8_of_byte hs off rfl,
    ⟨_, exec_cfgRd16_of_bytes hs off rfl rfl, memRead16_toNat layout s.cfg off.toNat⟩,
    ⟨_, gate_operational hs _, memRead32_toNat layout s.cfg off.toNat⟩⟩

theorem execWith_readOp_operational {L : Layout} {s : State} (hs : s.life = .operational) (w : Width) (off : Half) :
    execWith L (readOp w off) s = .next { s with result := some (dataResult w (memRead32 L s.cfg off.toNat)) } := by
  rw [execWith_readOp, gate_operational hs]
  rfl

theorem exec_readOp_operational {s : State} (hs : s.life = .operational) (w : Width) (off : Half) :
    exec (readOp w off) s = .next { s with result := some (dataResult w (memRead32 layout s.cfg off.toNat)) } := by
  rw [exec_eq_execWith, execWith_readOp_operational hs]

/-! ### The bytes after a write of a value -/

/-- What a write of any width leaves in the extent of an instance (40_config_access.md R133, step 1). -/
theorem rdByte_storeBytes_bytesOf {L : Layout} {cfg : CfgBytes} (hlen : cfg.length = L.cfgSize) (o : Nat) (w : Width)
    (v : Dword) {a : Nat} (ha : a < L.cfgSize) :
    rdByte L (storeBytes L cfg o (bytesOf w v)) a =
      if o ≤ a ∧ a < o + w.bytes then mergeByte (L.wmask a) (rdByte L cfg a) (byteAt v (a - o))
      else rdByte L cfg a := by
  rw [rdByte_storeBytes_inside L (bytesOf w v) hlen o ha, bytesOf_length]
  split
  next hcov => rw [bytesOf_getD w v (by omega)]
  next => rfl

theorem execWith_writeOp_operational {L : Layout} {s : State} (hs : s.life = .operational) (w : Width) (off : Half)
    (v : Dword) :
    execWith L (writeOp w off v) s = .next ((memWrite L off.toNat (bytesOf w v) s).respond .done) := by
  rw [execWith_writeOp, gate_operational hs]

/-- The next state of a write is operational. -/
theorem written_operational {s : State} (hs : s.life = .operational) (L : Layout) (o : Nat) (bs : List Byte)
    (r : Result) : ((memWrite L o bs s).respond r).life = .operational := hs

/-- Settles O55: the read primitive, and the store loop inside the extent. -/
theorem readsAndWritesOfAnyLayout : Obligations.ReadsAndWritesOfAnyLayout := by
  unfold Obligations.ReadsAndWritesOfAnyLayout
  intro L s w off v hs hlen
  constructor
  · exact ⟨_, execWith_readOp_operational hs w off,
      fun k hk => byteAt_memRead32 L s.cfg off.toNat (hk.trans_le (width_bytes_le w))⟩
  · refine ⟨_, execWith_writeOp_operational hs w off v, rfl, rfl, rfl, (storeBytes_length ..).trans hlen,
      fun a ha => ?_⟩
    have hbyte := rdByte_storeBytes_bytesOf hlen off.toNat w v ha
    rw [rdByte_inside L _ ha, rdByte_inside L _ ha] at hbyte
    exact hbyte

/-! ### A read after a write -/

/-- A bit of a value lies in one of its bytes. -/
theorem getLsbD_byteAt (v : Dword) (j : Nat) : (byteAt v (j / 8)).getLsbD (j % 8) = v.getLsbD j := by
  rw [byteAt_getLsbD, Nat.div_add_mod, decide_eq_true (Nat.mod_lt j (by decide)), Bool.true_and]

/-- The low bits of a value are known by its low bytes. -/
theorem setWidth_congr {n m : Nat} {u v : Dword} (hn : n ≤ 8 * m) (h : ∀ k < m, byteAt u k = byteAt v k) :
    u.setWidth n = v.setWidth n := by
  apply BitVec.eq_of_getLsbD_eq; intro j hj
  rw [BitVec.getLsbD_setWidth, BitVec.getLsbD_setWidth, ← getLsbD_byteAt u, ← getLsbD_byteAt v,
    h (j / 8) (by omega)]

/-- What a read of a width returns is known by that many bytes (40_config_access.md R134 to R136). -/
theorem dataResult_congr {w : Width} {u v : Dword} (h : ∀ k < w.bytes, byteAt u k = byteAt v k) :
    dataResult w u = dataResult w v := by
  cases w with
  | byte => exact congrArg Result.data8 (setWidth_congr (m := 1) (by decide) h)
  | word => exact congrArg Result.data16 (setWidth_congr (m := 2) (by decide) h)
  | dword => exact congrArg Result.data32 (dword_ext h)

/-- A byte of a read after a write is what the write left there (40_config_access.md R141). -/
theorem byteAt_readAfterWrite {L : Layout} {cfg : CfgBytes} (hlen : cfg.length = L.cfgSize) (o : Nat) (w : Width)
    (v : Dword) {k : Nat} (hk : k < w.bytes) :
    byteAt (memRead32 L (storeBytes L cfg o (bytesOf w v)) o) k =
      if o + k < L.cfgSize then mergeByte (L.wmask (o + k)) (rdByte L cfg (o + k)) (byteAt v k) else 0 := by
  rw [byteAt_memRead32 L _ _ (hk.trans_le (width_bytes_le w))]
  split
  next hin => rw [rdByte_storeBytes_bytesOf hlen o w v hin, if_pos (by omega), Nat.add_sub_cancel_left]
  next hout => exact rdByte_beyond L _ (Nat.not_lt.mp hout)

/-- The fields of which every bit can be written, at their own offset and width (10_state.md R25). -/
theorem layout_writable_fields {off : Half} {w : Width} (h : (off, w) ∈ ([(0x04, .word), (0x3C, .byte), (0x74, .word),
    (0x82, .word), (0x84, .dword), (0x88, .word)] : List (Half × Width))) {k : Nat} (hk : k < w.bytes) :
    off.toNat + k < layout.cfgSize ∧ layout.wmask (off.toNat + k) = 0xFF := by
  have hall : ∀ p ∈ ([(0x04, .word), (0x3C, .byte), (0x74, .word), (0x82, .word), (0x84, .dword), (0x88, .word)] :
      List (Half × Width)), ∀ k < p.2.bytes,
        p.1.toNat + k < layout.cfgSize ∧ layout.wmask (p.1.toNat + k) = 0xFF := by decide
  exact hall (off, w) h k hk

/-- Settles O21: each byte read is the merge that the write left there, and where the mask is full the written byte. -/
theorem readAfterWriteReturnsTheMerge : Obligations.ReadAfterWriteReturnsTheMerge := by
  unfold Obligations.ReadAfterWriteReturnsTheMerge
  intro s t w off v hs hlen hexec
  rw [exec_writeOp_operational hs] at hexec; cases hexec
  have hbyte {k : Nat} (hk : k < w.bytes) := byteAt_readAfterWrite (L := layout) hlen off.toNat w v hk
  have hread := exec_readOp_operational (written_operational hs layout off.toNat (bytesOf w v) .done) w off
  refine ⟨⟨_, hread, fun k hk => hbyte hk⟩, fun hfield => ?_⟩
  rw [hread, dataResult_congr fun k hk => ?_]
  obtain ⟨hin, hmask⟩ := layout_writable_fields hfield hk
  rw [respond_cfg, memWrite_cfg, hbyte hk, if_pos hin, hmask, mergeByte_full]

/-! ### Byte writes in any order -/

theorem mergeByte_idem (m old new : Byte) : mergeByte m (mergeByte m old new) new = mergeByte m old new := by
  apply BitVec.eq_of_getLsbD_eq; intro j _
  rw [mergeByte_getLsbD, mergeByte_getLsbD]
  cases m.getLsbD j <;> rfl

/-- The write of byte `k` of a value at its place in an access at `o`. -/
def writeByteOf (L : Layout) (o : Nat) (v : Dword) (s : State) (k : Nat) : State := memWrite L (o + k) [byteAt v k] s

theorem writeByteOf_length (L : Layout) (o : Nat) (v : Dword) (s : State) (k : Nat) :
    (writeByteOf L o v s k).cfg.length = s.cfg.length := storeBytes_length ..

theorem writeByteOf_getD (L : Layout) (o : Nat) (v : Dword) (s : State) (k x : Nat) :
    (writeByteOf L o v s k).cfg.getD x 0 =
      if x = o + k ∧ x < L.cfgSize ∧ x < s.cfg.length then mergeByte (L.wmask x) (s.cfg.getD x 0) (byteAt v k)
      else s.cfg.getD x 0 := storeByte_getD ..

theorem writeBytesOf_length (L : Layout) (o : Nat) (v : Dword) (ks : List Nat) (s : State) :
    (ks.foldl (writeByteOf L o v) s).cfg.length = s.cfg.length := by
  induction ks generalizing s with
  | nil => rfl
  | cons k ks ih => rw [List.foldl_cons, ih, writeByteOf_length]

/-- Byte writes one after another leave the merge in every byte that is among them, however often and in whatever
order (40_config_access.md R143). -/
theorem writeBytesOf_getD (L : Layout) (o : Nat) (v : Dword) (ks : List Nat) (s : State) (x : Nat) :
    (ks.foldl (writeByteOf L o v) s).cfg.getD x 0 =
      if (o ≤ x ∧ x - o ∈ ks) ∧ x < L.cfgSize ∧ x < s.cfg.length then
        mergeByte (L.wmask x) (s.cfg.getD x 0) (byteAt v (x - o))
      else s.cfg.getD x 0 := by
  induction ks generalizing s with
  | nil => simp
  | cons k ks ih =>
    rw [List.foldl_cons, ih, writeByteOf_length, writeByteOf_getD]
    by_cases hin : x < L.cfgSize ∧ x < s.cfg.length
    · simp only [hin, and_true]
      by_cases hk : x = o + k
      · have hoff : o ≤ x ∧ x - o = k := by omega
        rw [if_pos hk, if_pos (show o ≤ x ∧ x - o ∈ k :: ks by simp [hoff]), hoff.2, mergeByte_idem, ite_self]
      · have hmem : (o ≤ x ∧ x - o ∈ k :: ks) ↔ o ≤ x ∧ x - o ∈ ks := by
          rw [List.mem_cons]
          constructor
          · rintro ⟨hle, he | hks⟩
            · omega
            · exact ⟨hle, hks⟩
          · exact fun ⟨hle, hks⟩ => ⟨hle, .inr hks⟩
        simp only [if_neg hk, hmem]
    · simp only [hin, and_false, if_false]

/-- Settles O22: both leave the merge in the covered bytes of the extent and every other byte alone. -/
theorem writeEqualsItsByteWritesInAnyOrder : Obligations.WriteEqualsItsByteWritesInAnyOrder := by
  unfold Obligations.WriteEqualsItsByteWritesInAnyOrder
  intro s o w v ks hperm
  show (ks.foldl (writeByteOf layout o v) s).cfg = storeBytes layout s.cfg o (bytesOf w v)
  refine cfg_ext ((writeBytesOf_length ..).trans (storeBytes_length ..).symm) fun x => ?_
  have hcov : (o ≤ x ∧ x - o ∈ ks) ↔ o ≤ x ∧ x < o + (bytesOf w v).length := by
    rw [hperm.mem_iff, List.mem_range, bytesOf_length]
    omega
  rw [writeBytesOf_getD, storeBytes_getD]
  simp only [hcov]
  split
  next hx =>
    rw [bytesOf_length] at hx
    rw [bytesOf_getD w v (by omega)]
  next => rfl

/-! ### The BARs after a write -/

/-- The candidate of a write of a value, byte by byte (41_bar_logic.md R152). -/
theorem byteAt_candidate_bytesOf (L : Layout) (i : Fin 6) (o : Nat) (w : Width) (v : Dword) (old : CfgBytes) {j : Nat}
    (hj : j < 4) :
    byteAt (candidate L i o (bytesOf w v) old) j =
      if o ≤ (L.bar i).offset + j ∧ (L.bar i).offset + j < o + w.bytes then byteAt v ((L.bar i).offset + j - o)
      else rdByte L old ((L.bar i).offset + j) := by
  rw [byteAt_candidate L i o (bytesOf w v) old hj, candidateByte, bytesOf_length]
  split
  next hcov => rw [bytesOf_getD w v (by omega)]
  next => rfl

/-- The state of a BAR of this hardware after a write, which has none of size zero (41_bar_logic.md R153). -/
theorem memWrite_barState_layout (o : Nat) (w : Width) (v : Dword) (s : State) (i : Fin 6) :
    (memWrite layout o (bytesOf w v) s).barState[i] =
      if o < (layout.bar i).offset + 4 ∧ (layout.bar i).offset < o + w.bytes then
        if candidate layout i o (bytesOf w v) s.cfg &&& layout.wmask32 i = layout.wmask32 i then .sizing else .based
      else s.barState[i] := by
  rw [memWrite_barState, barEffects_get, bytesOf_length]
  refine if_congr ?_ (if_congr (allOnes_iff _ _) rfl rfl) rfl
  rw [touchesBar_iff]
  exact and_iff_right (layout_bar_size_ne_zero i)

/-- Settles O20: the value given by its bytes is the candidate. -/
theorem writesDriveTheBarStateMachine : Obligations.WritesDriveTheBarStateMachine := by
  unfold Obligations.WritesDriveTheBarStateMachine
  intro s t w off v cand i hs hexec hcand
  rw [exec_writeOp_operational hs] at hexec; cases hexec
  have hcandidate : cand = candidate layout i off.toNat (bytesOf w v) s.cfg :=
    dword_ext fun j hj => (hcand j hj).trans (byteAt_candidate_bytesOf layout i off.toNat w v s.cfg hj).symm
  rw [hcandidate]
  exact memWrite_barState_layout off.toNat w v s i

/-- A write onto a BAR leaves it Sizing or Based (41_bar_logic.md R153). -/
theorem memWrite_touched_ne_unsized {o : Nat} {w : Width} {i : Fin 6}
    (h : o < (layout.bar i).offset + 4 ∧ (layout.bar i).offset < o + w.bytes) (v : Dword) (s : State) :
    (memWrite layout o (bytesOf w v) s).barState[i] ≠ .unsized := by
  rw [memWrite_barState_layout, if_pos h]
  split <;> exact nofun

/-- Settles O37: of the ways an operation ends, only a write leaves an operational instance with other BAR states. -/
theorem onlyTouchingWritesMoveABar : Obligations.OnlyTouchingWritesMoveABar := by
  unfold Obligations.OnlyTouchingWritesMoveABar
  intro ins s t i hs ht hexec hmoved
  rcases exec_cases ins s with ⟨r, hend⟩ | ⟨w, off, v, hins, -, hend⟩ | ⟨-, habs, -⟩ | ⟨-, -, hend⟩
  · rw [hend] at hexec; cases hexec
    exact absurd rfl hmoved
  · rw [hend] at hexec; cases hexec
    rw [respond_barState] at hmoved ⊢
    by_cases htouch : off.toNat < (layout.bar i).offset + 4 ∧ (layout.bar i).offset < off.toNat + w.bytes
    · exact ⟨memWrite_touched_ne_unsized htouch v s, w, off, v, hins, htouch⟩
    · rw [memWrite_barState_layout, if_neg htouch] at hmoved
      exact absurd rfl hmoved
  · rw [hs] at habs; cases habs
  · rw [hend] at hexec; cases hexec
    cases ht

/-! ### Writes that touch no BAR -/

/-- A write off every BAR leaves all BAR states alone. -/
theorem memWrite_barState_untouched {o : Nat} {w : Width}
    (h : ∀ i : Fin 6, ¬ (o < (layout.bar i).offset + 4 ∧ (layout.bar i).offset < o + w.bytes)) (v : Dword)
    (s : State) : (memWrite layout o (bytesOf w v) s).barState = s.barState :=
  barState_ext fun i => by rw [memWrite_barState_layout, if_neg (h i)]

/-- A write off a BAR leaves its base alone. -/
theorem memWrite_barBase_untouched {o : Nat} {w : Width} {i : Fin 6}
    (h : ¬ (o < (layout.bar i).offset + 4 ∧ (layout.bar i).offset < o + w.bytes)) (v : Dword) (s : State) :
    barBase layout (memWrite layout o (bytesOf w v) s).cfg i = barBase layout s.cfg i := by
  rw [memWrite_cfg, barBase, barBase, barValue_untouched layout s.cfg o (bytesOf w v) i (by rwa [bytesOf_length])]

/-- What a hit depends on: the states and the bases of the BARs. -/
theorem barHits_congr {L : Layout} {s t : State} (hbar : t.barState = s.barState)
    (hbase : ∀ i, barBase L t.cfg i = barBase L s.cfg i) (sp : Space) (addr : Dword) :
    barHits L t sp addr = barHits L s sp addr := by
  funext i
  simp only [barHits, hbar, hbase]

/-- What a decode answer depends on: these and the enable of the space. -/
theorem decodeAddress_congr {L : Layout} {s t : State} {sp : Space} (hbar : t.barState = s.barState)
    (hbase : ∀ i, barBase L t.cfg i = barBase L s.cfg i) (hen : decodeEnable L t.cfg sp = decodeEnable L s.cfg sp)
    (addr : Dword) : decodeAddress L t sp addr = decodeAddress L s sp addr := by
  simp only [decodeAddress, hen, barHits_congr hbar hbase, hbase]

/-- Every bit of the first Command byte can be written, so a write onto it stores the written byte (10_state.md R30). -/
theorem memWrite_command {s : State} (hlen : s.cfg.length = 256) {o : Nat} {w : Width}
    (hcov : o ≤ 0x04 ∧ 0x04 < o + w.bytes) (v : Dword) :
    rdByte layout (memWrite layout o (bytesOf w v) s).cfg 0x04 = byteAt v (0x04 - o) := by
  have hmask : layout.wmask 0x04 = 0xFF := by decide
  rw [memWrite_cfg, rdByte_storeBytes_bytesOf hlen o w v (by decide), if_pos hcov, hmask, mergeByte_full]

/-- So that byte of the written value turns the decode of each space on or off (41_bar_logic.md R160). -/
theorem memWrite_decodeEnable {s : State} (hlen : s.cfg.length = 256) {o : Nat} {w : Width}
    (hcov : o ≤ 0x04 ∧ 0x04 < o + w.bytes) (v : Dword) (sp : Space) :
    decodeEnable layout (memWrite layout o (bytesOf w v) s).cfg sp =
      (byteAt v (0x04 - o)).getLsbD (if sp = .io then 0 else 1) := by
  rw [decodeEnable_eq_getLsbD, memWrite_command hlen hcov v]

/-- Settles O44: the Command register lies off every BAR, and the enables are in its first byte. -/
theorem commandWriteActsOnTheNextDecode : Obligations.CommandWriteActsOnTheNextDecode := by
  unfold Obligations.CommandWriteActsOnTheNextDecode
  intro s v hs hlen
  have hexec := exec_writeOp_operational hs .word 0x04 (v.setWidth 32)
  rw [← cfgWr16_eq_writeOp, show (0x04 : Half).toNat = 0x04 from rfl] at hexec
  have huntouched : ∀ i : Fin 6,
      ¬ (0x04 < (layout.bar i).offset + 4 ∧ (layout.bar i).offset < 0x04 + Width.word.bytes) := by decide
  have hbar := memWrite_barState_untouched huntouched (v.setWidth 32) s
  refine ⟨_, hexec, hbar, fun sp addr => ?_⟩
  have hen := memWrite_decodeEnable hlen (o := 0x04) (w := .word) (by decide) (v.setWidth 32) sp
  have hbit : (byteAt (v.setWidth 32) (0x04 - 0x04)).getLsbD (if sp = .io then 0 else 1) =
      v.getLsbD (if sp = .io then 0 else 1) := by
    rw [byteAt_extended_half v (by decide)]
    cases sp <;> simp
  rw [hbit] at hen
  refine ⟨fun hoff => ?_, fun hon hsome => ?_⟩
  · exact (exec_decodeOp_iff (written_operational hs ..) sp addr _).mpr (decodeAddress_disabled (hen.trans hoff) addr)
  · have hhits := barHits_congr hbar (fun i => memWrite_barBase_untouched (huntouched i) (v.setWidth 32) s) sp addr
    obtain ⟨i, hi, hhit⟩ := decodeAddress_mapped (addr := addr) (hen.trans hon)
      (hsome.imp fun i hwin => by rw [hhits]; exact (barHits_layout_iff s sp addr i).mpr hwin)
    rw [hhits] at hhit
    exact ⟨i, _, (exec_decodeOp_iff (written_operational hs ..) sp addr _).mpr hi,
      (barHits_layout_iff s sp addr i).mp hhit⟩

/-! ### Where a write has side effects -/

/-- No write changes a bit outside the write masks (40_config_access.md R133, step 1). -/
theorem rdByte_storeBytes_fixedBits (L : Layout) (bs : List Byte) (cfg : CfgBytes) (o x : Nat) :
    rdByte L (storeBytes L cfg o bs) x &&& ~~~(L.wmask x) = rdByte L cfg x &&& ~~~(L.wmask x) := by
  rw [rdByte_storeBytes]
  split
  · exact mergeByte_fixed ..
  · rfl

/-- The BARs of this hardware lie in the two ranges of BAR bytes (10_state.md R25). -/
theorem layout_bar_ranges (i : Fin 6) :
    (0x10 ≤ (layout.bar i).offset ∧ (layout.bar i).offset + 3 ≤ 0x1F) ∨
      (0x24 ≤ (layout.bar i).offset ∧ (layout.bar i).offset + 3 ≤ 0x2B) := by revert i; decide

theorem width_bytes_pos (w : Width) : 0 < w.bytes := by cases w <;> decide

/-- A write that covers no BAR byte touches no BAR. -/
theorem untouched_of_no_bar_byte {o n : Nat} (hn : 0 < n)
    (h : ∀ a, o ≤ a → a < o + n → ¬ (0x10 ≤ a ∧ a ≤ 0x1F) ∧ ¬ (0x24 ≤ a ∧ a ≤ 0x2B)) (i : Fin 6) :
    ¬ (o < (layout.bar i).offset + 4 ∧ (layout.bar i).offset < o + n) := by
  rintro ⟨hlo, hhi⟩
  have hrange := layout_bar_ranges i
  by_cases hle : o ≤ (layout.bar i).offset
  · have hcovered := h (layout.bar i).offset hle hhi
    omega
  · have hcovered := h o le_rfl (by omega)
    omega

/-- A write off the BARs and the first Command byte changes no decode answer. -/
theorem decodeAddress_memWrite_untouched {o : Nat} {w : Width}
    (hbars : ∀ i : Fin 6, ¬ (o < (layout.bar i).offset + 4 ∧ (layout.bar i).offset < o + w.bytes))
    (hcommand : ¬ (o ≤ 0x04 ∧ 0x04 < o + w.bytes)) (v : Dword) (s : State) (sp : Space) (addr : Dword) :
    decodeAddress layout (memWrite layout o (bytesOf w v) s) sp addr = decodeAddress layout s sp addr := by
  refine decodeAddress_congr (memWrite_barState_untouched hbars v s)
    (fun i => memWrite_barBase_untouched (hbars i) v s) ?_ addr
  rw [decodeEnable_eq_getLsbD, decodeEnable_eq_getLsbD, memWrite_cfg,
    rdByte_storeBytes_uncovered layout _ _ (by rwa [bytesOf_length])]

/-- A write that stores what is already there moves no BAR but an Unsized one: the register tells Sizing from Based. -/
theorem memWrite_barState_same_bytes {s : State} (hinv : s.Inv layout) (hs : s.life = .operational) {o : Nat}
    {w : Width} {v : Dword} (hsame : (memWrite layout o (bytesOf w v) s).cfg = s.cfg) {i : Fin 6}
    (hi : s.barState[i] ≠ .unsized) : (memWrite layout o (bytesOf w v) s).barState[i] = s.barState[i] := by
  have hz := layout_bar_size_ne_zero i
  by_cases htouch : o < (layout.bar i).offset + 4 ∧ (layout.bar i).offset < o + w.bytes
  · have hafter := (memWrite_inv layout_wellFormed hinv o (bytesOf w v) hs).bars i hz
    have hunsized := memWrite_touched_ne_unsized htouch v s
    exact hafter.barState_unique ((hinv hs).bars i hz) (by rw [hsame])
      ⟨fun h => absurd h hunsized, fun h => absurd h hi⟩
  · rw [memWrite_barState_layout, if_neg htouch]

/-- Settles O26, clause by clause. -/
theorem writesHaveSideEffectsOnlyAtTheirOffsets : Obligations.WritesHaveSideEffectsOnlyAtTheirOffsets := by
  unfold Obligations.WritesHaveSideEffectsOnlyAtTheirOffsets
  intro s t w off v hinv hs hexec
  rw [exec_writeOp_operational hs] at hexec; cases hexec
  refine ⟨⟨rfl, rfl, rfl, storeBytes_length ..⟩, fun a _ hout => ?_,
    fun a _ => rdByte_storeBytes_fixedBits layout (bytesOf w v) s.cfg off.toNat a, fun hoff => ?_,
    fun hlo hhi sp addr hbit => ?_, fun i hlo hhi => memWrite_touched_ne_unsized ⟨hlo, hhi⟩ v s,
    fun hsame i hi => memWrite_barState_same_bytes hinv hs hsame hi⟩
  · exact rdByte_storeBytes_uncovered layout (bytesOf w v) s.cfg (by rwa [bytesOf_length])
  · have huntouched := untouched_of_no_bar_byte (width_bytes_pos w) hoff
    refine ⟨memWrite_barState_untouched huntouched v s, fun hcommand sp addr r hr => ?_⟩
    have hsame := decodeAddress_memWrite_untouched huntouched (fun h => (hcommand 0x04 h.1 h.2).1 rfl) v s sp addr
    have hbefore := (exec_decodeOp_iff hs sp addr r).mp hr
    exact (exec_decodeOp_iff (written_operational hs ..) sp addr r).mpr (hsame.trans hbefore)
  · have hen := memWrite_decodeEnable (hinv hs).extent ⟨hlo, hhi⟩ v sp
    exact (exec_decodeOp_iff (written_operational hs ..) sp addr _).mpr (decodeAddress_disabled (hen.trans hbit) addr)

/-! ### The guest -/

/-- The operations a guest issues are the reads and the writes (30_encoding.md R101). -/
theorem read_or_write_of_guest {i : Instr} (h : i.issuer = .guest) :
    (∃ w off, i = readOp w off) ∨ ∃ w off v, i = writeOp w off v := by
  cases i with
  | cfgRd8 off => exact .inl ⟨.byte, off, rfl⟩
  | cfgRd16 off => exact .inl ⟨.word, off, rfl⟩
  | cfgRd32 off => exact .inl ⟨.dword, off, rfl⟩
  | cfgWr8 off dat => exact .inr ⟨_, _, _, cfgWr8_eq_writeOp off dat⟩
  | cfgWr16 off dat => exact .inr ⟨_, _, _, cfgWr16_eq_writeOp off dat⟩
  | cfgWr32 off dat => exact .inr ⟨.dword, off, dat, rfl⟩
  | barDecodeMem | barDecodeIo | capWalk | capFind | construct | teardown => cases h

theorem isGuestAnswer_dataResult (w : Width) (v : Dword) : (dataResult w v).isGuestAnswer = true := by cases w <;> rfl

/-- A guest's operation gets a guest's answer and leaves the instance operational (60_exceptions.md R205). -/
theorem exec_guest {i : Instr} {s : State} (hs : s.life = .operational) (hi : i.issuer = .guest) :
    ∃ t r, exec i s = .next t ∧ t.result = some r ∧ r.isGuestAnswer = true ∧ t.life = .operational := by
  rcases read_or_write_of_guest hi with ⟨w, off, rfl⟩ | ⟨w, off, v, rfl⟩
  · exact ⟨_, _, exec_readOp_operational hs w off, rfl, isGuestAnswer_dataResult w _, hs⟩
  · exact ⟨_, _, exec_writeOp_operational hs w off v, rfl, rfl, hs⟩

/-- Under the invariant Status reads as constructed: no bit of it can be written (10_state.md R31). -/
theorem exec_read_status {s : State} (hinv : s.Inv layout) (hs : s.life = .operational) :
    exec (.cfgRd16 0x06) s = .next { s with result := some (.data16 0x02B0) } := by
  have hstored : StoredBitsHold layout s.cfg := (hinv hs).stored
  have hlow : rdByte layout s.cfg 0x06 = 0xB0 := (hstored.fixed (by decide) (by decide)).trans (by decide)
  have hhigh : rdByte layout s.cfg 0x07 = 0x02 := (hstored.fixed (by decide) (by decide)).trans (by decide)
  exact exec_cfgRd16_of_bytes hs 0x06 hlow hhigh

/-- Settles O50: the next state of a guest's operation meets the invariant. -/
theorem guestIsNeverAnsweredAnError : Obligations.GuestIsNeverAnsweredAnError := by
  unfold Obligations.GuestIsNeverAnsweredAnError
  intro s i hinv hs hi
  obtain ⟨t, r, hexec, hres, hanswer, ht⟩ := exec_guest hs hi
  exact ⟨t, r, hexec, hres, hanswer, ht, exec_read_status (exec_inv hinv hexec) ht⟩

end Sys2Proof.Machine
end

section
/-! PROOFS. O34, O36 and O56: the sizing protocol and the base assignment of a BAR, and the base that cannot be told
from a sizing write. -/

namespace Sys2Proof.Machine

/-! ### The protocol, over any layout -/

theorem execWith_write_bar {L : Layout} {s : State} (hs : s.life = .operational) {i : Fin 6} {off : Half}
    (hoff : off.toNat = (L.bar i).offset) (v : Dword) :
    execWith L (.cfgWr32 off v) s = .next ((memWrite L (L.bar i).offset (bytesOf .dword v) s).respond .done) := by
  rw [cfgWr32_eq_writeOp, execWith_writeOp_operational hs, hoff]

theorem execWith_read_bar {L : Layout} {s : State} (hs : s.life = .operational) {i : Fin 6} {off : Half}
    (hoff : off.toNat = (L.bar i).offset) :
    execWith L (.cfgRd32 off) s = .next { s with result := some (.data32 (barValue L s.cfg i)) } := by
  have hread := execWith_readOp_operational (L := L) hs .dword off
  rw [hoff] at hread
  exact hread

/-- A whole write of a BAR in use, and the read that follows: the state is given by the all-ones test, the value by the
writable bits of what was written (41_bar_logic.md R153, R158). -/
theorem bar_write_read {L : Layout} (hL : L.wellFormed = true) {s : State} (hinv : s.Inv L) (hs : s.life = .operational)
    {i : Fin 6} (hz : (L.bar i).size ≠ 0) {off : Half} (hoff : off.toNat = (L.bar i).offset) (v : Dword) :
    ∃ t, execWith L (.cfgWr32 off v) s = .next t ∧
      t.barState[i] = (if v &&& L.wmask32 i = L.wmask32 i then .sizing else .based) ∧
      execWith L (.cfgRd32 off) t =
        .next { t with result := some (.data32 ((v &&& L.wmask32 i) ||| (L.bar i).reset)) } := by
  refine ⟨_, execWith_write_bar hs hoff v, barState_whole L s i v hz, ?_⟩
  have hinst := hinv hs
  rw [execWith_read_bar (written_operational hs ..) hoff, respond_cfg, memWrite_cfg,
    (hinst.bars i hz).barValue_whole hL hinst.extent]

theorem ones_and (m : Dword) : 0xFFFFFFFF &&& m = m := by
  rw [BitVec.and_comm]; exact BitVec.and_allOnes

/-- An aligned base with the fixed bits keeps all its bits under the mask (41_bar_logic.md R157). -/
theorem aligned_base_and_mask {L : Layout} (hL : L.wellFormed = true) {i : Fin 6} (hz : (L.bar i).size ≠ 0)
    {a : Dword} (ha : (L.bar i).size ∣ a.toNat) : (a ||| (L.bar i).reset) &&& L.wmask32 i = a := by
  obtain ⟨k, hk, -, hsize, hmask, -⟩ := Layout.bar_power hL hz
  have hbase : a &&& L.wmask32 i = a := by
    apply BitVec.eq_of_toNat_eq
    rw [hmask, and_sizeBits_toNat a hk, Nat.div_mul_cancel (hsize ▸ ha)]
  rw [or_and_right, hbase, Layout.reset_and_mask hL hz]
  exact BitVec.or_zero

/-- The mask of a BAR in use is the top-most aligned base (41_bar_logic.md R150). -/
theorem wmask32_toNat {L : Layout} {i : Fin 6} (hz : (L.bar i).size ≠ 0) :
    (L.wmask32 i).toNat = 2 ^ 32 - (L.bar i).size := by
  rw [Layout.wmask32, barMask, if_neg hz, BitVec.toNat_ofNat]
  exact Nat.mod_eq_of_lt (Nat.sub_lt (by decide) (Nat.pos_of_ne_zero hz))

/-- Settles O56: all ones pass the all-ones test, and an aligned base below the top-most one does not. -/
theorem sizingProtocolOfAnyLayout : Obligations.SizingProtocolOfAnyLayout := by
  unfold Obligations.SizingProtocolOfAnyLayout
  intro L s i off hL hinv hs hz hoff
  refine ⟨?_, fun a ha hlt => ?_⟩
  · obtain ⟨t, hwrite, hstate, hread⟩ := bar_write_read hL hinv hs hz hoff 0xFFFFFFFF
    rw [ones_and] at hstate hread
    exact ⟨t, hwrite, hstate.trans (if_pos rfl), hread⟩
  · obtain ⟨t, hwrite, hstate, hread⟩ := bar_write_read hL hinv hs hz hoff (a ||| (L.bar i).reset)
    rw [aligned_base_and_mask hL hz ha] at hstate hread
    have hne : a ≠ L.wmask32 i := fun he => by rw [he, wmask32_toNat hz] at hlt; exact absurd hlt (lt_irrefl _)
    exact ⟨t, hwrite, hstate.trans (if_neg hne), hread⟩

/-- Settles O34: every BAR of this hardware is in use. -/
theorem sizingProtocolRoundTrip : Obligations.SizingProtocolRoundTrip := by
  unfold Obligations.SizingProtocolRoundTrip
  intro s i hinv hs
  obtain ⟨⟨t, hwrite, -, hread⟩, hbase⟩ := sizingProtocolOfAnyLayout layout s i (barOffset i) layout_wellFormed hinv
    hs (layout_bar_size_ne_zero i) (barOffset_toNat i)
  simp only [← exec_eq_execWith] at hwrite hread hbase
  refine ⟨⟨t, hwrite, hread⟩, fun a ha hlt => ?_⟩
  obtain ⟨u, hwrite, -, hread⟩ := hbase a ha hlt
  exact ⟨u, hwrite, hread⟩

/-! ### The top-most base -/

/-- A merge sees a written byte only through the write mask. -/
theorem mergeByte_congr {m new new' : Byte} (h : new &&& m = new' &&& m) (old : Byte) :
    mergeByte m old new = mergeByte m old new' := by rw [mergeByte, mergeByte, h]

/-- Values that agree in the writable bits of a BAR leave the same bytes when written onto all of it. -/
theorem storeBytes_bar_congr {L : Layout} (hL : L.wellFormed = true) {i : Fin 6} {u v : Dword}
    (h : u &&& L.wmask32 i = v &&& L.wmask32 i) (cfg : CfgBytes) :
    storeBytes L cfg (L.bar i).offset (bytesOf .dword u) = storeBytes L cfg (L.bar i).offset (bytesOf .dword v) := by
  obtain ⟨-, hmask, -⟩ := Layout.bar_bytes hL i
  have hbytes : Width.dword.bytes = 4 := rfl
  refine cfg_ext (by rw [storeBytes_length, storeBytes_length]) fun x => ?_
  rw [storeBytes_getD, storeBytes_getD, bytesOf_length, bytesOf_length]
  split
  next hx =>
    obtain ⟨j, hj, rfl⟩ : ∃ j < 4, x = (L.bar i).offset + j := ⟨x - (L.bar i).offset, by omega, by omega⟩
    rw [Nat.add_sub_cancel_left, bytesOf_getD _ u (by omega), bytesOf_getD _ v (by omega), hmask j hj]
    exact mergeByte_congr (by rw [← byteAt_and, ← byteAt_and, h]) _
  next => rfl

/-- No two BARs of this hardware share a byte, so a whole write of one touches no other. -/
theorem layout_bar_disjoint {i j : Fin 6} (hij : j ≠ i) :
    ¬ ((layout.bar i).offset < (layout.bar j).offset + 4 ∧
      (layout.bar j).offset < (layout.bar i).offset + Width.dword.bytes) := by revert i j; decide

/-- Values that agree in the writable bits of a BAR have the same effect when written onto all of it. -/
theorem memWrite_bar_congr {i : Fin 6} {u v : Dword} (h : u &&& layout.wmask32 i = v &&& layout.wmask32 i) (s : State) :
    memWrite layout (layout.bar i).offset (bytesOf .dword u) s =
      memWrite layout (layout.bar i).offset (bytesOf .dword v) s := by
  have hbars : (memWrite layout (layout.bar i).offset (bytesOf .dword u) s).barState =
      (memWrite layout (layout.bar i).offset (bytesOf .dword v) s).barState := by
    refine barState_ext fun j => ?_
    by_cases hij : j = i
    · subst hij
      have hz := layout_bar_size_ne_zero j
      rw [barState_whole layout s j u hz, barState_whole layout s j v hz, h]
    · rw [memWrite_barState_layout, memWrite_barState_layout, if_neg (layout_bar_disjoint hij),
        if_neg (layout_bar_disjoint hij)]
  rw [memWrite_barState, memWrite_barState] at hbars
  rw [memWrite, memWrite, hbars, storeBytes_bar_congr layout_wellFormed h]

/-- Settles O36: the top-most base is the mask itself, which all ones agree with in every writable bit. -/
theorem topmostBaseIsASizingWrite : Obligations.TopmostBaseIsASizingWrite := by
  unfold Obligations.TopmostBaseIsASizingWrite
  intro s i hs
  have hmask : BitVec.ofNat 32 (2 ^ 32 - (layout.bar i).size) = layout.wmask32 i :=
    (if_neg (layout_bar_size_ne_zero i)).symm
  have hagree : layout.wmask32 i &&& layout.wmask32 i = 0xFFFFFFFF &&& layout.wmask32 i := by
    rw [ones_and, BitVec.and_self]
  have hsizing : (memWrite layout (layout.bar i).offset (bytesOf .dword 0xFFFFFFFF) s).barState[i] = .sizing := by
    rw [barState_whole layout s i _ (layout_bar_size_ne_zero i), ones_and, if_pos rfl]
  rw [hmask]
  refine ⟨_, ?_, exec_write_bar hs i 0xFFFFFFFF, hsizing, exec_decodeOp_ne_mapped (written_operational hs ..) ?_⟩
  · rw [exec_write_bar hs, memWrite_bar_congr hagree]
  · rw [respond_barState, hsizing]; exact nofun

end Sys2Proof.Machine
end
